-- ==== Sys2Proof/Word.lean ====
section
/-! DEFINITION. The words of the block: the byte, the 11-bit command word, and the three kinds of encoded word
that spec/opcode_table.json has rows for. -/

namespace Sys2Proof

/-- A byte: the only datum the block moves, unsigned, 8 bits (spec/00_scope.md R7, R8). -/
abbrev Byte := BitVec 8

/-- The command word CMD[10:0] (spec/30_encoding.md R57). -/
abbrev CmdWord := BitVec 11

/-- An encoded word with the format its table row names. The block's own operations have the one command format
(R57). The table also has rows for the bytes of the wire and of the payload (R55, R53), each read in a format of its
own. DESIGN CHOICE, log entry 9: such a byte is presented as a word of its own kind. -/
inductive CodeWord where
  /-- Format CMD: a command word. -/
  | cmd (w : CmdWord)
  /-- Format wire-byte: one byte of the incoming stream. -/
  | wire (b : Byte)
  /-- Format payload-byte: one byte of a payload, as the encoder stuffs it. -/
  | payload (b : Byte)
  deriving DecidableEq, Repr

end Sys2Proof
end

