-- ==== Sys2Proof/Machine/Wire.lean ====
section
/-! DEFINITION. The frame constants, byte stuffing and the frame of a payload (spec/30_encoding.md R50 to R54,
spec/00_scope.md section 5). -/

namespace Sys2Proof.Machine

/-- END, the frame delimiter (R50). -/
abbrev END : Byte := 0xC0#8

/-- ESC, the escape introducer (R50). -/
abbrev ESC : Byte := 0xDB#8

/-- ESC_END, the escaped stand-in for END (R50). -/
abbrev ESC_END : Byte := 0xDC#8

/-- ESC_ESC, the escaped stand-in for ESC (R50). -/
abbrev ESC_ESC : Byte := 0xDD#8

/-- is_special(b): the byte is END or ESC (spec/00_scope.md section 5). -/
def isSpecial (b : Byte) : Bool := b == END || b == ESC

/-- stuff(b): the one or two frame bytes that carry a payload byte (R53). -/
def stuff (b : Byte) : List Byte :=
  if b = END then [ESC, ESC_END] else if b = ESC then [ESC, ESC_ESC] else [b]

/-- stuff_all(s): the concatenation of stuff over the bytes in order (spec/00_scope.md section 5). -/
def stuffAll : List Byte → List Byte
  | [] => []
  | b :: s => stuff b ++ stuffAll s

/-- count_special(s): how many bytes of s are END or ESC (R52). -/
def countSpecial : List Byte → Nat
  | [] => 0
  | b :: s => (if isSpecial b then 1 else 0) + countSpecial s

/-- frame(P), the SLIP frame of a payload (R52). -/
def frame (P : List Byte) : List Byte := [END] ++ stuffAll P ++ [END]

/-- L = M + K + 2, the exact length of a payload's frame, computed in natural numbers without wrap (R70, R73;
log entry 22). -/
def frameLength (P : List Byte) : Nat := P.length + countSpecial P + 2

/-- The payload byte an escape pair stands for, looked up on its second byte: 0xC0 for ESC_END, 0xDB for ESC_ESC
and nothing for any other (R54). -/
def unescape (b : Byte) : Option Byte :=
  if b = ESC_END then some END else if b = ESC_ESC then some ESC else none

end Sys2Proof.Machine
end

