-- ==== Sys2Proof/Syntax.lean ====
section
/-! DEFINITION. The instructions: one constructor for each row of spec/opcode_table.json. -/

namespace Sys2Proof

/-- The rows of spec/opcode_table.json. A constructor carries a byte where the row has an operand byte. The data field
of the other command rows is ignored (R57, D20), so it is no operand. -/
inductive Instr where
  /-- ENCODE (R70). -/
  | encode
  /-- DEC.RESET (R81), also DEC.NEW and DEC.DEFAULT (R63). -/
  | decReset
  /-- DEC.INSERT b (R82). -/
  | decInsert (b : Byte)
  /-- DEC.IS_COMPLETED (R92). -/
  | decIsCompleted
  /-- DEC.GET_BUFFER (R93). -/
  | decGetBuffer
  /-- RESERVED.5 (R60): names no operation. -/
  | reserved5
  /-- RESERVED.6 (R60): names no operation. -/
  | reserved6
  /-- RESERVED.7 (R60): names no operation. -/
  | reserved7
  /-- WIRE.END (R55, R84): the wire byte 0xC0 in state Accumulating. -/
  | wireEnd
  /-- WIRE.ESC (R55, R85): the wire byte 0xDB in state Accumulating. -/
  | wireEsc
  /-- WIRE.DATA b (R55, R86): any other wire byte in state Accumulating. -/
  | wireData (b : Byte)
  /-- WIRE.ESC_END (R55, R88): the wire byte 0xDC in state EscapePending. -/
  | wireEscEnd
  /-- WIRE.ESC_ESC (R55, R89): the wire byte 0xDD in state EscapePending. -/
  | wireEscEsc
  /-- WIRE.BAD_ESC b (R55, R90): any other wire byte in state EscapePending. -/
  | wireBadEsc (b : Byte)
  /-- STUFF.END (R53): the payload byte 0xC0. -/
  | stuffEnd
  /-- STUFF.ESC (R53): the payload byte 0xDB. -/
  | stuffEsc
  /-- STUFF.PLAIN b (R53): any other payload byte. -/
  | stuffPlain (b : Byte)
  deriving DecidableEq, Repr

end Sys2Proof
end

