-- ==== Sys2Proof/Machine/Operands.lean ====
section
/-! DEFINITION. The operands of the rows: the byte classes that select a transition or a stuffing (spec/30_encoding.md
R55, R53) and the byte a row stands for. -/

namespace Sys2Proof.Machine

/-- The byte classes DEC.INSERT sees (R55). -/
inductive WireClass where
  | endByte
  | escByte
  | data
  | escEnd
  | escEsc
  | badEsc
  deriving DecidableEq, Repr

/-- The byte classes the encoder sees (R53). -/
inductive StuffClass where
  | endByte
  | escByte
  | plain
  deriving DecidableEq, Repr

/-- The class of a wire byte, by the decoder's state and the byte's value (the table of R55). -/
def classify (escp : Bool) (b : Byte) : WireClass :=
  if escp then
    if b = ESC_END then .escEnd else if b = ESC_ESC then .escEsc else .badEsc
  else
    if b = END then .endByte else if b = ESC then .escByte else .data

/-- The class of a payload byte (R53). -/
def stuffClass (b : Byte) : StuffClass :=
  if b = END then .endByte else if b = ESC then .escByte else .plain

/-- The wire byte an instruction feeds to the decoder: the operand of DEC.INSERT, or the byte a WIRE row stands
for (R55, R57). None for an instruction that feeds no byte. -/
def wireByte : Instr → Option Byte
  | .decInsert b => some b
  | .wireEnd => some END
  | .wireEsc => some ESC
  | .wireData b => some b
  | .wireEscEnd => some ESC_END
  | .wireEscEsc => some ESC_ESC
  | .wireBadEsc b => some b
  | .encode => none
  | .decReset => none
  | .decIsCompleted => none
  | .decGetBuffer => none
  | .reserved5 => none
  | .reserved6 => none
  | .reserved7 => none
  | .stuffEnd => none
  | .stuffEsc => none
  | .stuffPlain _ => none

/-- The payload byte a STUFF row stands for (R53). None for every other row. -/
def payloadByte : Instr → Option Byte
  | .stuffEnd => some END
  | .stuffEsc => some ESC
  | .stuffPlain b => some b
  | .encode => none
  | .decReset => none
  | .decInsert _ => none
  | .decIsCompleted => none
  | .decGetBuffer => none
  | .reserved5 => none
  | .reserved6 => none
  | .reserved7 => none
  | .wireEnd => none
  | .wireEsc => none
  | .wireData _ => none
  | .wireEscEnd => none
  | .wireEscEsc => none
  | .wireBadEsc _ => none

/-- The decoder state a row's format names: the value of ESCP under which the row's word reads as that row. None for a
row whose format names no decoder state (R55, spec/opcode_table.json). -/
def contextEscp : Instr → Option Bool
  | .wireEnd => some false
  | .wireEsc => some false
  | .wireData _ => some false
  | .wireEscEnd => some true
  | .wireEscEsc => some true
  | .wireBadEsc _ => some true
  | .encode => none
  | .decReset => none
  | .decInsert _ => none
  | .decIsCompleted => none
  | .decGetBuffer => none
  | .reserved5 => none
  | .reserved6 => none
  | .reserved7 => none
  | .stuffEnd => none
  | .stuffEsc => none
  | .stuffPlain _ => none

end Sys2Proof.Machine
end

