-- ==== Sys2Proof/WellFormed.lean ====
section
/-! DEFINITION. Which terms of Instr are well-formed: a row's operand byte is one its format admits, and the row
names an operation. -/

namespace Sys2Proof

open Machine

/-- A term that is an instruction of the block. WIRE.DATA carries any byte but END and ESC, WIRE.BAD_ESC any byte but
ESC_END and ESC_ESC, STUFF.PLAIN any byte but END and ESC (R55, R53). A reserved code names no operation (R60). -/
def Instr.wf : Instr → Bool
  | .encode => true
  | .decReset => true
  | .decInsert _ => true
  | .decIsCompleted => true
  | .decGetBuffer => true
  | .reserved5 => false
  | .reserved6 => false
  | .reserved7 => false
  | .wireEnd => true
  | .wireEsc => true
  | .wireData b => !isSpecial b
  | .wireEscEnd => true
  | .wireEscEsc => true
  | .wireBadEsc b => (unescape b).isNone
  | .stuffEnd => true
  | .stuffEsc => true
  | .stuffPlain b => !isSpecial b

end Sys2Proof
end

