-- ==== Sys2Proof/Decode.lean ====
section
/-! DEFINITION. Decoding: total on every command word, wire byte and payload byte, with the reserved codes refused by
name (spec/30_encoding.md R55, R57, R58, R60). After it the encoder, from the same tables. -/

namespace Sys2Proof

open Machine

/-- Why a word is no instruction: its operation code is reserved (R60, U6). -/
inductive Reject where
  | reserved5
  | reserved6
  | reserved7
  deriving DecidableEq, Repr

/-- op = CMD[10:8] (R57). -/
def opField (w : CmdWord) : BitVec 3 := w.extractLsb' 8 3

/-- data = CMD[7:0] (R57). -/
def dataField (w : CmdWord) : Byte := w.extractLsb' 0 8

/-- The operation of a command word by its op field (R58). The data field is the operand byte of DEC.INSERT, taken as it
stands, and is ignored otherwise (R57, D20). Codes 5, 6 and 7 are refused by name (R60). -/
def decodeCmd (w : CmdWord) : Except Reject Instr :=
  match (opField w).toNat with
  | 0 => .ok .encode
  | 1 => .ok .decReset
  | 2 => .ok (.decInsert (dataField w))
  | 3 => .ok .decIsCompleted
  | 4 => .ok .decGetBuffer
  | 5 => .error .reserved5
  | 6 => .error .reserved6
  | _ => .error .reserved7

/-- The row of a wire byte, by the decoder's state and the byte (R55). Every byte has one. -/
def decodeWire (escp : Bool) (b : Byte) : Instr :=
  match classify escp b with
  | .endByte => .wireEnd
  | .escByte => .wireEsc
  | .data => .wireData b
  | .escEnd => .wireEscEnd
  | .escEsc => .wireEscEsc
  | .badEsc => .wireBadEsc b

/-- The row of a payload byte (R53). Every byte has one. -/
def decodePayload (b : Byte) : Instr :=
  match stuffClass b with
  | .endByte => .stuffEnd
  | .escByte => .stuffEsc
  | .plain => .stuffPlain b

/-- The instruction a presented word stands for, in a decoder whose escape-pending flag is escp. -/
def decode (escp : Bool) : CodeWord → Except Reject Instr
  | .cmd w => decodeCmd w
  | .wire b => .ok (decodeWire escp b)
  | .payload b => .ok (decodePayload b)

/-- The command word with the given op and data fields, op in the high bits (R57). -/
def cmdWord (op : BitVec 3) (data : Byte) : CmdWord := op ++ data

/-- The word of an instruction, from the tables of R58, R55 and R53. Where data is ignored the encoder writes 0. -/
def encode : Instr → CodeWord
  | .encode => .cmd (cmdWord 0 0)
  | .decReset => .cmd (cmdWord 1 0)
  | .decInsert b => .cmd (cmdWord 2 b)
  | .decIsCompleted => .cmd (cmdWord 3 0)
  | .decGetBuffer => .cmd (cmdWord 4 0)
  | .reserved5 => .cmd (cmdWord 5 0)
  | .reserved6 => .cmd (cmdWord 6 0)
  | .reserved7 => .cmd (cmdWord 7 0)
  | .wireEnd => .wire END
  | .wireEsc => .wire ESC
  | .wireData b => .wire b
  | .wireEscEnd => .wire ESC_END
  | .wireEscEsc => .wire ESC_ESC
  | .wireBadEsc b => .wire b
  | .stuffEnd => .payload END
  | .stuffEsc => .payload ESC
  | .stuffPlain b => .payload b

/-- The presented word that a number stands for, numbered as spec/opcode_table.json numbers its rows: a row of at most 8
bits is a wire byte, a longer one a command word of 11 bits. A number that does not fit its format is no word. DESIGN
CHOICE, log entries 11 and 19: a bare 8-bit number is read as a wire byte, and bits 15 to 11 above a command word must
be 0. -/
def tableCodeWord (nbits w : Nat) : Option CodeWord :=
  if nbits ≤ 8 then
    if w < 256 then some (.wire (BitVec.ofNat 8 w)) else none
  else
    if w < 2048 then some (.cmd (BitVec.ofNat 11 w)) else none

/-- The decoder state in which a bare table number is read: the state named by the most specific row that the number
matches, so EscapePending for 0xDC and 0xDD and Accumulating otherwise. DESIGN CHOICE, log entry 11: the table
distinguishes these rows by the decoder's state, which the number does not carry. -/
def tableEscp (x : CodeWord) : Bool :=
  match x with
  | .wire b => (unescape b).isSome
  | .cmd _ => false
  | .payload _ => false

/-- The instruction the decoder reads from a number of the opcode table; none where it refuses. -/
def decodeTableWord (nbits w : Nat) : Option Instr :=
  match tableCodeWord nbits w with
  | none => none
  | some x =>
    match decode (tableEscp x) x with
    | .ok i => some i
    | .error _ => none

end Sys2Proof
end

