-- ==== Sys2Proof/Config.lean ====
section
/-! DEFINITION. The parameters an instance of the block is built with (spec/00_scope.md R7). -/

namespace Sys2Proof

/-- ESC_FAULT_POLICY (R7, R90, D7): what becomes of ESCP after an invalid escape sequence. -/
inductive EscFaultPolicy where
  /-- No state changes; the escape stays pending. -/
  | hold
  /-- The malformed pair is dropped; the escape is no longer pending. -/
  | discard
  deriving DecidableEq, Repr

/-- ESC_OVF_POLICY (R7, R91, D8): what becomes of ESCP after a capacity error on the second byte of a
valid escape pair. -/
inductive EscOvfPolicy where
  /-- No state changes; the escape stays pending. -/
  | hold
  /-- The escape is no longer pending. -/
  | drop
  deriving DecidableEq, Repr

/-- The parameters of an instance (R7). They are fixed when the block is built and no operation changes them
(R23). The capacities are independent natural numbers, 0 and 1 included (D5). -/
structure Params where
  /-- ENC_CAP, the capacity of the payload buffer EBUF. -/
  encCap : Nat
  /-- DEC_CAP, the capacity of the accumulator ACC. -/
  decCap : Nat
  escFaultPolicy : EscFaultPolicy
  escOvfPolicy : EscOvfPolicy
  /-- EBUF_INIT, the content of EBUF at power-on. -/
  ebufInit : List Byte
  deriving DecidableEq, Repr

/-- The constraint R7 puts on the parameters: EBUF_INIT fits in EBUF. -/
abbrev Params.wf (p : Params) : Prop := p.ebufInit.length ≤ p.encCap

end Sys2Proof
end

