-- ==== Sys2Proof/Machine/Params.lean ====
section
/-! DEFINITION. The parameters State.reset is built with. -/

namespace Sys2Proof.Machine

/-- The parameters of State.reset. DESIGN CHOICE, log entries 2, 3 and 4: the spec leaves both capacities and EBUF_INIT
open (R7, D5, D11); the capacities are those of the spec's own program P1, EBUF_INIT is the spec's default. The two
policies are the spec's decision for this hardware (D7, D8). No statement rests on these values: statements quantify
over the parameters. -/
def resetParams : Params where
  encCap := 8
  decCap := 4
  escFaultPolicy := .hold
  escOvfPolicy := .hold
  ebufInit := []

end Sys2Proof.Machine
end

