-- ==== Sys2Proof/Machine/State.lean ====
section
/-! DEFINITION. The state of the block, what it answers, and why a step can stop. -/

namespace Sys2Proof.Machine

/-- A buffer, EBUF or ACC: an ordered sequence of bytes, index 0 first (spec/10_state.md R13). Its length is the list's
length; cells at or beyond it are not state. -/
abbrev Buffer := List Byte

/-- The two buffers, and so the two address spaces (R30). An address is a buffer's name and an index. -/
inductive BufName where
  | ebuf
  | acc
  deriving DecidableEq, Repr

/-- A buffer keeps its bound: its length is at most its capacity (R13, R14). A list of bytes has one form, so equal
buffers are equal lists (log entry 12). -/
def Memory.wf (cap : Nat) (b : Buffer) : Bool := decide (b.length ≤ cap)

/-- The two errors (spec/60_exceptions.md R100). They are results of an operation, not faults of the model (R103, D21). -/
inductive SlipError where
  | capacityExceeded
  | invalidEscapeSequence
  deriving DecidableEq, Repr

/-- The status of a response: Ok or one of the two errors, and no fourth value (R59, U15). -/
inductive Status where
  | ok
  | error (e : SlipError)
  deriving DecidableEq, Repr

/-- The response of an operation (R59). A part that is not meaningful for the operation is absent. DESIGN CHOICE, log
entry 7: the spec gives those parts no value, so the model has none. -/
structure Response where
  status : Status
  /-- Meaningful for DEC.IS_COMPLETED only. -/
  flag : Option Bool
  /-- Meaningful for DEC.GET_BUFFER only: a length and that many bytes. -/
  view : Option (List Byte)
  deriving DecidableEq, Repr

/-- What a step returns to the caller. -/
inductive Reply where
  /-- The response of an operation (R59). -/
  | op (r : Response)
  /-- The number BufLen or BufCap returns (R32, R33). -/
  | size (n : Nat)
  /-- The byte BufGet returns (R34). -/
  | byte (b : Byte)
  /-- Whether the caller's BufPush succeeded (R35). DESIGN CHOICE, log entry 14: the form is the container's. -/
  | pushed (accepted : Bool)
  /-- The caller's BufReplace is done (R36). -/
  | replaced
  /-- The frame bytes a STUFF row gives (R53). DESIGN CHOICE, log entry 10. -/
  | frameBytes (bs : List Byte)
  deriving DecidableEq, Repr

/-- The caller's own accesses to EBUF between operations, the five primitives (R32 to R37). -/
inductive Access where
  | len
  | cap
  | get (i : Nat)
  | push (b : Byte)
  | replace (bs : List Byte)
  deriving DecidableEq, Repr

/-- What the caller presents to the block. -/
inductive Input where
  /-- A word that stands for an instruction. -/
  | word (w : CodeWord)
  /-- An access of the caller's to the buffer it owns (R37). -/
  | access (a : Access)
  deriving DecidableEq, Repr

/-- The state: EBUF of the encoder unit (R10), ACC, ESCP and DONE of the decoder unit (R11), which are all the
architectural state there is (R12). Beside them the instance's parameters, which no step changes (R23, log entry 1), and
the model's own two ends of the interface, what is presented and what was answered (D1, log entries 5 and 6). -/
structure State where
  params : Params
  ebuf : Buffer
  acc : Buffer
  escp : Bool
  done : Bool
  input : List Input
  reply : Option Reply
  deriving DecidableEq, Repr

/-- Why a step stops in a fault: never. The block has no trap, and an error is a result that is returned, not a fault
(R103, R109, D21; log entry 18). -/
inductive Fault where
  deriving DecidableEq, Repr

/-- Why a step is refused. -/
inductive Refusal where
  /-- Raised by exec for an instruction without a meaning yet. Safe: nothing is claimed. -/
  | notModelled (mnemonic : String)
  /-- Raised for operation code 5 (R60). Safe: nothing can be proved about it. -/
  | reservedCode5
  /-- Raised for operation code 6 (R60). Safe: nothing can be proved about it. -/
  | reservedCode6
  /-- Raised for operation code 7 (R60). Safe: nothing can be proved about it. -/
  | reservedCode7
  /-- Raised for the caller's BufGet at or beyond the length (R34, D12). Safe: no value is made up. -/
  | bufGetOutOfRange
  /-- Raised for a BufReplace longer than the capacity (R36, D18). Safe: no effect is made up. -/
  | bufReplaceTooLong
  deriving DecidableEq, Repr

/-- What a step answers. -/
abbrev Result := Host.Outcome State Fault Refusal

namespace State

/-- Overwrites EBUF. -/
def withEbuf (s : State) (b : Buffer) : State := { s with ebuf := b }

/-- Overwrites ACC. -/
def withAcc (s : State) (b : Buffer) : State := { s with acc := b }

/-- Overwrites ESCP. -/
def withEscp (s : State) (v : Bool) : State := { s with escp := v }

/-- Overwrites DONE. -/
def withDone (s : State) (v : Bool) : State := { s with done := v }

/-- Overwrites what the caller has presented. -/
def withInput (s : State) (l : List Input) : State := { s with input := l }

/-- Overwrites what was answered last. -/
def withReply (s : State) (r : Option Reply) : State := { s with reply := r }

/-- The state at power-on of an instance built with parameters p: the decoder's initial state, EBUF_INIT in EBUF (R22,
R120), nothing presented and nothing answered. -/
def powerOn (p : Params) : State where
  params := p
  ebuf := p.ebufInit
  acc := []
  escp := false
  done := false
  input := []
  reply := none

/-- The machine right after reset: power-on of the instance that resetParams names. -/
def reset : State := powerOn resetParams

end State

end Sys2Proof.Machine
end

