-- ==== Sys2Proof/Machine/Flags.lean ====
section
/-! DEFINITION. The flag computations of the decoder and the numbers of the status field. -/

namespace Sys2Proof.Machine

/-- DONE after an END in state Accumulating: set when the accumulator is non-empty, unchanged when it is empty (R84). -/
def doneAfterEnd (acc : Buffer) (done : Bool) : Bool := if 1 ≤ acc.length then true else done

/-- ESCP after InvalidEscapeSequence, by ESC_FAULT_POLICY (R90). -/
def escpAfterFault (p : EscFaultPolicy) (escp : Bool) : Bool :=
  match p with
  | .hold => escp
  | .discard => false

/-- ESCP after CapacityExceeded on the second byte of a valid pair, by ESC_OVF_POLICY (R91). -/
def escpAfterOverflow (p : EscOvfPolicy) (escp : Bool) : Bool :=
  match p with
  | .hold => escp
  | .drop => false

/-- The 2-bit status field of a response (R59): 0 Ok, 1 CapacityExceeded, 2 InvalidEscapeSequence. -/
def statusCode : Status → BitVec 2
  | .ok => 0#2
  | .error .capacityExceeded => 1#2
  | .error .invalidEscapeSequence => 2#2

/-- The status an answer carries, where it is the response of an operation. -/
def replyStatus : Option Reply → Option Status
  | some (.op r) => some r.status
  | some (.size _) => none
  | some (.byte _) => none
  | some (.pushed _) => none
  | some .replaced => none
  | some (.frameBytes _) => none
  | none => none

/-- The response of an operation that ends without raise and returns nothing else (R59). -/
def okResponse : Response := { status := .ok, flag := none, view := none }

/-- The response of an operation that raises e: the error's name and nothing beside it (R103, R105). -/
def errorResponse (e : SlipError) : Response := { status := .error e, flag := none, view := none }

end Sys2Proof.Machine
end

