-- ==== Sys2Proof/Machine/Ops.lean ====
section
/-! DEFINITION. The operations the meanings are written in: the buffer primitives (spec/20_memory.md R32 to R36),
returning a result and raising an error (spec/60_exceptions.md R103), the resets, and the decoder's transitions
(spec/41_decoder.md R82 to R91). -/

namespace Sys2Proof.Machine

/-- BufLen(B) (R32). -/
def bufLen (b : Buffer) : Nat := b.length

/-- BufGet(B, i) (R34): the byte at index i; none at or beyond the length, where there is nothing to read (D12). -/
def bufGet (b : Buffer) (i : Nat) : Option Byte := b[i]?

/-- BufPush(B, x) (R35): the buffer with the byte appended; none where the buffer is full and the push fails.
DESIGN CHOICE, log entry 13: a buffer longer than its capacity, which no run reaches, is full. -/
def bufPush (cap : Nat) (b : Buffer) (x : Byte) : Option Buffer :=
  if b.length < cap then some (b ++ [x]) else none

/-- BufReplace(B, bs) (R36): the new content; none where it is longer than the capacity, a call the spec leaves open. -/
def bufReplace (cap : Nat) (bs : List Byte) : Option Buffer :=
  if bs.length ≤ cap then some bs else none

/-- The buffer of a given name. -/
def State.buffer (s : State) : BufName → Buffer
  | .ebuf => s.ebuf
  | .acc => s.acc

/-- BufCap(B): the capacity of a buffer, a constant of the instance (R33). -/
def State.bufCap (s : State) : BufName → Nat
  | .ebuf => s.params.encCap
  | .acc => s.params.decCap

/-- One byte of memory, at the address (n, i) (R30). -/
def State.readByte (s : State) (n : BufName) (i : Nat) : Option Byte := bufGet (s.buffer n) i

/-- A buffer as cells, index and byte, lowest index first (R30). -/
def cells (b : Buffer) : List Host.Cell := b.zipIdx.map fun p => (p.2, p.1)

/-- Ends a step with an answer to the caller (R59). -/
def answer (r : Reply) (s : State) : Result := .next (s.withReply (some r))

/-- Ends an operation without raise: its result is Ok (spec/00_scope.md section 5). -/
def finish (s : State) : Result := answer (.op okResponse) s

/-- raise e: ends an operation with the error as its result, returned in the same step. Nothing else happens: no control
transfer, no saved context, no mode change (R103, R109). -/
def raise (e : SlipError) (s : State) : Result := answer (.op (errorResponse e)) s

/-- The decoder's initial state (R81, R120). It is also what corresponds to the return from an error (R106, R109). -/
def clearDecoder (s : State) : State := ((s.withAcc []).withEscp false).withDone false

/-- The implicit reset at the start of an insert after completion (R83): ACC and DONE, not ESCP (R82; DEDUCED, log
entry 23). -/
def implicitReset (s : State) : State := if s.done then (s.withAcc []).withDone false else s

/-- Accumulating, END (R84). -/
def onEnd (s : State) : Result := finish (s.withDone (doneAfterEnd s.acc s.done))

/-- Accumulating, ESC (R85). -/
def onEsc (s : State) : Result := finish (s.withEscp true)

/-- Accumulating, any other byte (R86). -/
def onData (b : Byte) (s : State) : Result :=
  match bufPush s.params.decCap s.acc b with
  | some a => finish (s.withAcc a)
  | none => raise .capacityExceeded s

/-- EscapePending, the second byte of a valid pair that stands for v (R88, R89; R91 where the accumulator is full). -/
def onEscPair (v : Byte) (s : State) : Result :=
  match bufPush s.params.decCap s.acc v with
  | some a => finish ((s.withAcc a).withEscp false)
  | none => raise .capacityExceeded (s.withEscp (escpAfterOverflow s.params.escOvfPolicy s.escp))

/-- EscapePending, any other byte (R90): the capacity is not tested (R107). UNVERIFIED, log entry 17: under DISCARD the byte
is consumed and not looked at again (D22). -/
def onBadEsc (s : State) : Result :=
  raise .invalidEscapeSequence (s.withEscp (escpAfterFault s.params.escFaultPolicy s.escp))

/-- The transition a byte's class selects (R55, R87). -/
def transition (c : WireClass) (b : Byte) (s : State) : Result :=
  match c with
  | .endByte => onEnd s
  | .escByte => onEsc s
  | .data => onData b s
  | .escEnd => onEscPair END s
  | .escEsc => onEscPair ESC s
  | .badEsc => onBadEsc s

/-- Consuming one incoming byte: the implicit reset, then the transition on the byte's class in the state it left
(R82, R83). UNVERIFIED, log entry 16: that the byte which triggers the reset is processed is the spec's decision D9. -/
def insertByte (b : Byte) (s : State) : Result :=
  transition (classify (implicitReset s).escp b) b (implicitReset s)

/-- Answers the frame bytes of one payload byte (R53) and changes no buffer and no flag. DESIGN CHOICE, log entry 10. -/
def stuffByte (b : Byte) (s : State) : Result := answer (.frameBytes (stuff b)) s

/-- Carries on with f where an operation answered a next state, and stops where it did not. -/
def andThen (o : Result) (f : State → Result) : Result :=
  match o with
  | .next t => f t
  | .fault r => .fault r
  | .refused r => .refused r

end Sys2Proof.Machine
end

