-- ==== Sys2Proof/Machine/Decoder.lean ====
section
/-! DEFINITION. The decoder family (spec/41_decoder.md). -/

namespace Sys2Proof.Machine

/-- DEC.RESET (R81). -/
def execDecReset (s : State) : Result := finish (clearDecoder s)

/-- DEC.INSERT b (R82). -/
def execDecInsert (b : Byte) (s : State) : Result := insertByte b s

/-- DEC.IS_COMPLETED (R92): flag = DONE; no state changes. -/
def execDecIsCompleted (s : State) : Result :=
  answer (.op { status := .ok, flag := some s.done, view := none }) s

/-- DEC.GET_BUFFER (R93): view = ACC, a snapshot of the whole sequence (D17, log entry 21); no state changes. -/
def execDecGetBuffer (s : State) : Result :=
  answer (.op { status := .ok, flag := none, view := some s.acc }) s

end Sys2Proof.Machine
end

