-- ==== Sys2Proof/Machine/Access.lean ====
section
/-! DEFINITION. What the caller does beside issuing operations: its own accesses to EBUF (spec/20_memory.md R37) and the
pseudo-operations (spec/30_encoding.md R63). -/

namespace Sys2Proof.Machine

/-- One of the five primitives, applied by the caller to EBUF between operations (R32 to R37). A BufGet outside the
buffer and a BufReplace longer than the capacity are refused (R34, R36). A BufPush on a full buffer fails and leaves it
unchanged (R35). EBUF.LOAD bs is .replace bs (R63). -/
def execAccess (a : Access) (s : State) : Result :=
  match a with
  | .len => answer (.size (bufLen s.ebuf)) s
  | .cap => answer (.size (s.bufCap .ebuf)) s
  | .get i =>
    match s.readByte .ebuf i with
    | some b => answer (.byte b) s
    | none => .refused .bufGetOutOfRange
  | .push b =>
    match bufPush s.params.encCap s.ebuf b with
    | some e => answer (.pushed true) (s.withEbuf e)
    | none => answer (.pushed false) s
  | .replace bs =>
    match bufReplace s.params.encCap bs with
    | some e => answer .replaced (s.withEbuf e)
    | none => .refused .bufReplaceTooLong

/-- EBUF.READ (R63): BufGet at every index below BufLen, lowest first. -/
def ebufRead (s : State) : List (Option Byte) := (List.range (bufLen s.ebuf)).map (s.readByte .ebuf)

/-- DEC.INSERT of each byte in order, index 0 first, stopping at the first insert that does not return Ok (R63). -/
def insertAll : List Byte → State → Result
  | [], s => .next s
  | b :: bs, s =>
    andThen (execDecInsert b s) fun t =>
      if replyStatus t.reply = some .ok then insertAll bs t else .next t

/-- DECODE bs (R63): DEC.RESET, the inserts, DEC.IS_COMPLETED, DEC.GET_BUFFER. DEDUCED, log entry 20: the two reads are
issued after an error as well. -/
def decodeStream (bs : List Byte) (s : State) : Result :=
  andThen (execDecReset s) fun t0 =>
    andThen (insertAll bs t0) fun t1 =>
      andThen (execDecIsCompleted t1) fun t2 => execDecGetBuffer t2

end Sys2Proof.Machine
end

