-- ==== Sys2Proof/Machine/Encoder.lean ====
section
/-! DEFINITION. The encoder family (spec/40_encoder.md). -/

namespace Sys2Proof.Machine

/-- ENCODE (R70): all or nothing on the exact length of the frame. Where the frame is too long EBUF is unchanged (R71);
else the whole frame replaces it at once (R72). -/
def execEncode (s : State) : Result :=
  if frameLength s.ebuf > s.params.encCap then raise .capacityExceeded s
  else
    match bufReplace s.params.encCap (frame s.ebuf) with
    | some b => finish (s.withEbuf b)
    | none => .refused .bufReplaceTooLong

end Sys2Proof.Machine
end

