-- ==== Sys2Proof/Machine/Reserved.lean ====
section
/-! DEFINITION. The reserved operation codes (spec/30_encoding.md R60): they name no operation, and a model refuses them
by name. -/

namespace Sys2Proof.Machine

/-- RESERVED.5 (R60). -/
def execReserved5 (_s : State) : Result := .refused .reservedCode5

/-- RESERVED.6 (R60). -/
def execReserved6 (_s : State) : Result := .refused .reservedCode6

/-- RESERVED.7 (R60). -/
def execReserved7 (_s : State) : Result := .refused .reservedCode7

/-- The name under which a step refuses a word that the decoder rejects (R60, U6). -/
def refusalOf : Reject → Refusal
  | .reserved5 => .reservedCode5
  | .reserved6 => .reservedCode6
  | .reserved7 => .reservedCode7

end Sys2Proof.Machine
end

