-- ==== Sys2Proof/Machine/StuffBytes.lean ====
section
/-! DEFINITION. The payload-byte rows: the encoder's stuffing of one payload byte (spec/30_encoding.md R53). What ENCODE
does with a payload byte inside its one atomic operation is no state of its own (R24). DESIGN CHOICE, log entry 10: run by
itself, a row answers the frame bytes its payload byte becomes, and changes nothing else. -/

namespace Sys2Proof.Machine

/-- STUFF.END (R53): 0xC0 becomes DB DC. -/
def execStuffEnd (s : State) : Result := stuffByte END s

/-- STUFF.ESC (R53): 0xDB becomes DB DD. -/
def execStuffEsc (s : State) : Result := stuffByte ESC s

/-- STUFF.PLAIN b (R53): any other byte passes through unchanged. -/
def execStuffPlain (b : Byte) (s : State) : Result := stuffByte b s

end Sys2Proof.Machine
end

