-- ==== Sys2Proof/Machine/WireBytes.lean ====
section
/-! DEFINITION. The wire-byte rows (spec/30_encoding.md R55, spec/41_decoder.md R84 to R90). The only thing the block does
with a wire byte is DEC.INSERT of it. DESIGN CHOICE, log entry 9: a row's meaning is that insert of its byte in every
state; in the decoder state its format names, it is the row's own transition. -/

namespace Sys2Proof.Machine

/-- WIRE.END (R84). -/
def execWireEnd (s : State) : Result := insertByte END s

/-- WIRE.ESC (R85). -/
def execWireEsc (s : State) : Result := insertByte ESC s

/-- WIRE.DATA b (R86). -/
def execWireData (b : Byte) (s : State) : Result := insertByte b s

/-- WIRE.ESC_END (R88, R91). -/
def execWireEscEnd (s : State) : Result := insertByte ESC_END s

/-- WIRE.ESC_ESC (R89, R91). -/
def execWireEscEsc (s : State) : Result := insertByte ESC_ESC s

/-- WIRE.BAD_ESC b (R90). -/
def execWireBadEsc (b : Byte) (s : State) : Result := insertByte b s

end Sys2Proof.Machine
end

