-- ==== Sys2Proof/Machine/Dispatch.lean ====
section
/-! DEFINITION. One arm per instruction. -/

namespace Sys2Proof.Machine

def exec (i : Instr) (s : State) : Host.Outcome State Fault Refusal :=
  match i with
  | .encode => Sys2Proof.Machine.execEncode s
  | .decReset => Sys2Proof.Machine.execDecReset s
  | .decInsert b => Sys2Proof.Machine.execDecInsert b s
  | .decIsCompleted => Sys2Proof.Machine.execDecIsCompleted s
  | .decGetBuffer => Sys2Proof.Machine.execDecGetBuffer s
  | .reserved5 => Sys2Proof.Machine.execReserved5 s
  | .reserved6 => Sys2Proof.Machine.execReserved6 s
  | .reserved7 => Sys2Proof.Machine.execReserved7 s
  | .wireEnd => Sys2Proof.Machine.execWireEnd s
  | .wireEsc => Sys2Proof.Machine.execWireEsc s
  | .wireData b => Sys2Proof.Machine.execWireData b s
  | .wireEscEnd => Sys2Proof.Machine.execWireEscEnd s
  | .wireEscEsc => Sys2Proof.Machine.execWireEscEsc s
  | .wireBadEsc b => Sys2Proof.Machine.execWireBadEsc b s
  | .stuffEnd => Sys2Proof.Machine.execStuffEnd s
  | .stuffEsc => Sys2Proof.Machine.execStuffEsc s
  | .stuffPlain b => Sys2Proof.Machine.execStuffPlain b s

end Sys2Proof.Machine
end

