-- ==== Sys2Proof/Machine/Issue.lean ====
section
/-! DEFINITION. Taking one presented input: the block decodes a word in its current decoder state and runs the
instruction, or performs the caller's access. -/

namespace Sys2Proof.Machine

/-- What one presented input does. A word the decoder rejects is refused under the rejection's name (R60). -/
def issue (i : Input) (s : State) : Result :=
  match i with
  | .word w =>
    match decode s.escp w with
    | .ok instr => exec instr s
    | .error r => .refused (refusalOf r)
  | .access a => execAccess a s

/-- Nothing is presented: the block is idle and all state survives unchanged (R111). -/
def idle (s : State) : Result := .next s

/-- A word presented as the very next input. A wire byte is read in the decoder state its table row names, so ESCP is set
to that (log entry 11). -/
def present (x : CodeWord) (s : State) : State :=
  match x with
  | .wire _ => (s.withEscp (tableEscp x)).withInput (.word x :: s.input)
  | .cmd _ => s.withInput (.word x :: s.input)
  | .payload _ => s.withInput (.word x :: s.input)

end Sys2Proof.Machine
end

