-- ==== Sys2Proof/Machine/Step.lean ====
section
/-! DEFINITION. One step of the block: it takes the oldest input the caller has presented (spec/20_memory.md R43). -/

namespace Sys2Proof.Machine

/-- One step. The block has no program counter and fetches nothing (R21): the order of operations is the order in which
the caller presents them. With nothing presented the block is idle (R111). -/
def step (s : State) : Host.Outcome State Fault Refusal :=
  match s.input with
  | [] => idle s
  | i :: rest => issue i (s.withInput rest)

/-- s with a word of the opcode table presented as the very next input (log entries 5, 11 and 19). A number that is no
word of the table presents nothing. -/
def State.withFetchWord (s : State) (nbits w : Nat) : State :=
  match tableCodeWord nbits w with
  | none => s
  | some x => present x s

end Sys2Proof.Machine
end

