-- ==== Sys2Proof/Safety.lean ====
section
/-! DEFINITION. What a good state is, and what parts of the state belong to which unit. -/

namespace Sys2Proof.Machine

/-- The invariants of the state (spec/10_state.md R14 and R17): both buffers within their capacities, a completed packet
leaves no escape pending, and a completed packet is not empty. -/
abbrev State.Inv (s : State) : Prop :=
  Memory.wf s.params.encCap s.ebuf = true ∧
  Memory.wf s.params.decCap s.acc = true ∧
  (s.done = true → s.escp = false) ∧
  (s.done = true → 1 ≤ s.acc.length)

/-- The two states agree on the architectural state and the parameters; what is presented and what was answered may
differ. -/
abbrev State.SameArch (s t : State) : Prop :=
  s.params = t.params ∧ s.ebuf = t.ebuf ∧ s.acc = t.acc ∧ s.escp = t.escp ∧ s.done = t.done

/-- The two states agree on the decoder unit (R11) and the parameters. -/
abbrev State.SameDec (s t : State) : Prop :=
  s.params = t.params ∧ s.acc = t.acc ∧ s.escp = t.escp ∧ s.done = t.done

/-- The two states agree on the encoder unit (R10) and the parameters. -/
abbrev State.SameEnc (s t : State) : Prop := s.params = t.params ∧ s.ebuf = t.ebuf

/-- The operation answers a next state: t with the response put in its reply, whose status is st (R59). What the response
carries in the parts that are not meaningful for the operation is left open. -/
abbrev Answers (o : Result) (t : State) (st : Status) : Prop :=
  ∃ r : Response, r.status = st ∧ o = .next { t with reply := some (.op r) }

/-- DEC.INSERT written out from the pseudocode of R82, line by line, on the items of the decoder's state. The answer is
ACC, ESCP, DONE and the result. It is a second reading of the rule beside the machine's own, to hold the one against the
other. -/
def insertPseudocode (p : Params) (acc : Buffer) (escp done : Bool) (b : Byte) : Buffer × Bool × Bool × Status :=
  let acc := if done then [] else acc
  let done := if done then false else done
  if escp = false then
    if b = 0xC0#8 then (acc, escp, if acc.length ≥ 1 then true else done, .ok)
    else if b = 0xDB#8 then (acc, true, done, .ok)
    else if acc.length = p.decCap then (acc, escp, done, .error .capacityExceeded)
    else (acc ++ [b], escp, done, .ok)
  else
    if b = 0xDC#8 ∨ b = 0xDD#8 then
      if acc.length = p.decCap then
        (acc, if p.escOvfPolicy = .drop then false else escp, done, .error .capacityExceeded)
      else (acc ++ [if b = 0xDC#8 then 0xC0#8 else 0xDB#8], false, done, .ok)
    else
      (acc, if p.escFaultPolicy = .discard then false else escp, done, .error .invalidEscapeSequence)

end Sys2Proof.Machine

namespace Sys2Proof

/-- The operations of the decoder unit: the four of R58 and the wire rows, which are what one of them does. -/
def Instr.isDec : Instr → Bool
  | .decReset => true
  | .decInsert _ => true
  | .decIsCompleted => true
  | .decGetBuffer => true
  | .wireEnd => true
  | .wireEsc => true
  | .wireData _ => true
  | .wireEscEnd => true
  | .wireEscEsc => true
  | .wireBadEsc _ => true
  | .encode => false
  | .reserved5 => false
  | .reserved6 => false
  | .reserved7 => false
  | .stuffEnd => false
  | .stuffEsc => false
  | .stuffPlain _ => false

end Sys2Proof
end

