-- ==== Sys2Proof/Certificates/Slice0/Obligations.lean ====
section
/-! DEFINITION. The statements for the provers, family by family. A rule R<n> is the spec's. A log entry <n> is
notes/assumptions/<n>.md. -/

open Sys2Proof Sys2Proof.Machine

/-! ### Reset -/

/-- R22: at power-on, for every choice of the parameters, ACC is empty, ESCP and DONE are false and EBUF holds EBUF_INIT;
the state after reset is one of these; and DEC.RESET gives the decoder's values from every state. -/
def Obligations.PowerOnAndResetGiveInitialValues : Prop :=
  (∀ p : Params, (State.powerOn p).acc = [] ∧ (State.powerOn p).escp = false ∧ (State.powerOn p).done = false ∧
    (State.powerOn p).ebuf = p.ebufInit) ∧
  (∃ p : Params, p.wf ∧ State.reset = State.powerOn p) ∧
  (∀ s : State, ∃ t, exec .decReset s = .next t ∧ t.acc = [] ∧ t.escp = false ∧ t.done = false)

/-- R81: DEC.RESET. Its command words are those with op = 1, whatever data is; in every state it answers Ok with ACC
empty and both flags clear, EBUF and all else unchanged; issued again it changes nothing. -/
def Obligations.DecResetClearsDecoder : Prop :=
  (∀ (e : Bool) (w : CmdWord), w &&& 0x700#11 = 0x100#11 → decode e (.cmd w) = .ok .decReset) ∧
  (∀ s : State, Answers (exec .decReset s) { s with acc := [], escp := false, done := false } .ok) ∧
  (∀ s t u : State, exec .decReset s = .next t → exec .decReset t = .next u → u = t)

/-! ### Encoder -/

/-- R70, R71, R72: ENCODE. Its command words are those with op = 0. With M the length of EBUF, K its count of END and ESC
and L = M + K + 2: where L > ENC_CAP it answers CapacityExceeded and changes nothing; else it answers Ok and EBUF is END, the
stuffed payload, END, of length L. All else is unchanged. -/
def Obligations.EncodeCommitsFrameOrChangesNothing : Prop :=
  (∀ (e : Bool) (w : CmdWord), w &&& 0x700#11 = 0x000#11 → decode e (.cmd w) = .ok .encode) ∧
  (∀ s : State, s.ebuf.length + s.ebuf.countP (fun b => b = 0xC0#8 ∨ b = 0xDB#8) + 2 > s.params.encCap →
    Answers (exec .encode s) s (.error .capacityExceeded)) ∧
  (∀ s : State, s.ebuf.length + s.ebuf.countP (fun b => b = 0xC0#8 ∨ b = 0xDB#8) + 2 ≤ s.params.encCap →
    Answers (exec .encode s) { s with ebuf := [0xC0#8] ++ s.ebuf.flatMap stuff ++ [0xC0#8] } .ok ∧
    ([0xC0#8] ++ s.ebuf.flatMap stuff ++ [0xC0#8]).length =
      s.ebuf.length + s.ebuf.countP (fun b => b = 0xC0#8 ∨ b = 0xDB#8) + 2)

/-- R52: the frame of a payload is END, the bytes of the payload stuffed in order, END; its length is the payload's plus
the number of its bytes equal to END or ESC plus 2. -/
def Obligations.FrameHasExactLength : Prop :=
  (∀ P : List Byte, frame P = [0xC0#8] ++ P.flatMap stuff ++ [0xC0#8]) ∧
  (∀ P : List Byte, (frame P).length = P.length + P.countP (fun b => b = 0xC0#8 ∨ b = 0xDB#8) + 2)

/-- R53: wherever a byte stands in a payload, stuffing carries it by DB DC if it is C0, by DB DD if it is DB, and by itself
otherwise, between what carries the bytes before it and what carries those after it. -/
def Obligations.StuffingReplacesEachByteInPlace : Prop :=
  ∀ (P Q : List Byte) (b : Byte), stuffAll (P ++ b :: Q) =
    stuffAll P ++
      (if b = 0xC0#8 then [0xDB#8, 0xDC#8] else if b = 0xDB#8 then [0xDB#8, 0xDD#8] else [b]) ++ stuffAll Q

/-- After every successful ENCODE: EBUF begins and ends with END and no byte between is END; every ESC in it is followed at
once by ESC_END or ESC_ESC; it is at least two bytes longer than the payload. -/
def Obligations.EncodedFrameIsDelimitedAndEscaped : Prop :=
  ∀ s t : State, exec .encode s = .next t → frameLength s.ebuf ≤ s.params.encCap →
    t.ebuf.head? = some END ∧ t.ebuf.getLast? = some END ∧
    (∀ i, 0 < i → i + 1 < t.ebuf.length → t.readByte .ebuf i ≠ some END) ∧
    (∀ i, t.readByte .ebuf i = some ESC →
      t.readByte .ebuf (i + 1) = some ESC_END ∨ t.readByte .ebuf (i + 1) = some ESC_ESC) ∧
    s.ebuf.length + 2 ≤ t.ebuf.length

/-- A buffer that is full, or has room for one byte only, is never encoded: ENCODE answers CapacityExceeded, and issued
again it answers the same. -/
def Obligations.EncodeFailsWithoutRoomForDelimiters : Prop :=
  ∀ s t : State, s.params.encCap ≤ s.ebuf.length + 1 → exec .encode s = .next t →
    t = { s with reply := t.reply } ∧ replyStatus t.reply = some (.error .capacityExceeded) ∧ exec .encode t = .next t

/-- The STUFF rows answer, in every state, the frame bytes their payload byte becomes, and change no buffer and no flag.
The form of this answer is the model's choice, log entry 10; the map itself is the spec's byte stuffing. -/
def Obligations.StuffRowsAnswerFrameBytes : Prop :=
  ∀ s : State,
    exec .stuffEnd s = .next { s with reply := some (.frameBytes [0xDB#8, 0xDC#8]) } ∧
    exec .stuffEsc s = .next { s with reply := some (.frameBytes [0xDB#8, 0xDD#8]) } ∧
    (∀ b : Byte, b ≠ 0xC0#8 → b ≠ 0xDB#8 →
      exec (.stuffPlain b) s = .next { s with reply := some (.frameBytes [b]) })

/-! ### Decoder: one byte -/

/-- R82: DEC.INSERT. Its command words are those with op = 2, the byte being data as it stands; in every state with ACC
within its capacity it does what the pseudocode of the rule says, under every value of the two policies, and answers that
result; EBUF, the parameters and the inputs are unchanged. Step 1 of the pseudocode is the spec's decision D9, log entry
16. -/
def Obligations.DecInsertFollowsPseudocode : Prop :=
  (∀ (e : Bool) (w : CmdWord), w &&& 0x700#11 = 0x200#11 →
    decode e (.cmd w) = .ok (.decInsert (w.extractLsb' 0 8))) ∧
  (∀ (b : Byte) (s : State), s.acc.length ≤ s.params.decCap →
    Answers (exec (.decInsert b) s)
      { s with
        acc := (insertPseudocode s.params s.acc s.escp s.done b).1
        escp := (insertPseudocode s.params s.acc s.escp s.done b).2.1
        done := (insertPseudocode s.params s.acc s.escp s.done b).2.2.1 }
      (insertPseudocode s.params s.acc s.escp s.done b).2.2.2)

/-- An insert of any byte that finds DONE true is the insert of that byte with ACC cleared and DONE cleared first; in a
state of the invariant it never raises an error. That the byte itself is processed is the spec's own decision D9, log
entry 16, and that no error is raised is the spec's own inference. -/
def Obligations.ImplicitResetPrecedesInsert : Prop :=
  (∀ (b : Byte) (s : State), s.done = true →
    exec (.decInsert b) s = exec (.decInsert b) { s with acc := [], done := false }) ∧
  (∀ (b : Byte) (s : State), s.Inv → s.done = true →
    ∃ t, exec (.decInsert b) s = .next t ∧ replyStatus t.reply = some .ok)

/-- R84: in state Accumulating, END sets DONE where ACC is non-empty and changes nothing where it is empty; the result is
Ok either way and ACC never grows. -/
def Obligations.InsertEndCompletesNonEmptyPacket : Prop :=
  ∀ s : State, s.escp = false → s.done = false →
    (1 ≤ s.acc.length → Answers (exec (.decInsert 0xC0#8) s) { s with done := true } .ok) ∧
    (s.acc.length = 0 → Answers (exec (.decInsert 0xC0#8) s) s .ok)

/-- R85: in state Accumulating, ESC sets ESCP and appends nothing; it cannot fail, even with a full accumulator. -/
def Obligations.InsertEscSetsEscapePending : Prop :=
  ∀ s : State, s.escp = false → s.done = false →
    Answers (exec (.decInsert 0xDB#8) s) { s with escp := true } .ok

/-- R86: in state Accumulating, any other byte is appended where ACC has room, and raises CapacityExceeded with nothing
changed where ACC is full. -/
def Obligations.InsertDataAppendsOrOverflows : Prop :=
  ∀ (b : Byte) (s : State), b ≠ 0xC0#8 → b ≠ 0xDB#8 → s.escp = false → s.done = false →
    (s.acc.length < s.params.decCap → Answers (exec (.decInsert b) s) { s with acc := s.acc ++ [b] } .ok) ∧
    (s.acc.length = s.params.decCap → Answers (exec (.decInsert b) s) s (.error .capacityExceeded))

/-- R88, R89: in state EscapePending with room in ACC, ESC_END appends C0 and ESC_ESC appends DB; the escape is no longer
pending, DONE is not set, and no new escape starts. -/
def Obligations.InsertEscapeCodeAppendsOriginal : Prop :=
  ∀ s : State, s.escp = true → s.done = false → s.acc.length < s.params.decCap →
    Answers (exec (.decInsert 0xDC#8) s) { s with acc := s.acc ++ [0xC0#8], escp := false } .ok ∧
    Answers (exec (.decInsert 0xDD#8) s) { s with acc := s.acc ++ [0xDB#8], escp := false } .ok

/-- R90: in state EscapePending any byte other than DC and DD raises InvalidEscapeSequence; ACC and DONE are unchanged,
whether ACC is full or not; ESCP stays true under HOLD and is cleared under DISCARD. -/
def Obligations.InsertBadEscapeRaisesError : Prop :=
  ∀ (b : Byte) (s : State), b ≠ 0xDC#8 → b ≠ 0xDD#8 → s.escp = true → s.done = false →
    (s.params.escFaultPolicy = .hold →
      Answers (exec (.decInsert b) s) s (.error .invalidEscapeSequence)) ∧
    (s.params.escFaultPolicy = .discard →
      Answers (exec (.decInsert b) s) { s with escp := false } (.error .invalidEscapeSequence))

/-- R91: in state EscapePending with ACC full, DC and DD raise CapacityExceeded; ACC and DONE are unchanged; ESCP stays
true under HOLD and is cleared under DROP. -/
def Obligations.InsertEscapeCodeOverflows : Prop :=
  ∀ (b : Byte) (s : State), b = 0xDC#8 ∨ b = 0xDD#8 → s.escp = true → s.done = false →
    s.acc.length = s.params.decCap →
    (s.params.escOvfPolicy = .hold → Answers (exec (.decInsert b) s) s (.error .capacityExceeded)) ∧
    (s.params.escOvfPolicy = .drop →
      Answers (exec (.decInsert b) s) { s with escp := false } (.error .capacityExceeded))

/-- The WIRE rows, each in the decoder state its format names: its next state and its result. That a row runs as the insert
of its byte is the model's choice, log entry 9; the transitions are the spec's. -/
def Obligations.WireRowsMakeTheirTransition : Prop :=
  ∀ s : State, s.done = false →
    (s.escp = false →
      (1 ≤ s.acc.length → Answers (exec .wireEnd s) { s with done := true } .ok) ∧
      (s.acc.length = 0 → Answers (exec .wireEnd s) s .ok) ∧
      Answers (exec .wireEsc s) { s with escp := true } .ok ∧
      (∀ b : Byte, b ≠ 0xC0#8 → b ≠ 0xDB#8 →
        (s.acc.length < s.params.decCap → Answers (exec (.wireData b) s) { s with acc := s.acc ++ [b] } .ok) ∧
        (s.acc.length = s.params.decCap → Answers (exec (.wireData b) s) s (.error .capacityExceeded)))) ∧
    (s.escp = true →
      (s.acc.length < s.params.decCap →
        Answers (exec .wireEscEnd s) { s with acc := s.acc ++ [0xC0#8], escp := false } .ok ∧
        Answers (exec .wireEscEsc s) { s with acc := s.acc ++ [0xDB#8], escp := false } .ok) ∧
      (s.acc.length = s.params.decCap →
        Answers (exec .wireEscEnd s) { s with escp := escpAfterOverflow s.params.escOvfPolicy true }
          (.error .capacityExceeded) ∧
        Answers (exec .wireEscEsc s) { s with escp := escpAfterOverflow s.params.escOvfPolicy true }
          (.error .capacityExceeded)) ∧
      (∀ b : Byte, b ≠ 0xDC#8 → b ≠ 0xDD#8 →
        Answers (exec (.wireBadEsc b) s) { s with escp := escpAfterFault s.params.escFaultPolicy true }
          (.error .invalidEscapeSequence)))

/-- In every state, whatever its ESCP, a row that feeds a wire byte does exactly what DEC.INSERT of that byte does. The
model's choice, log entry 9. -/
def Obligations.WireRowsAgreeWithDecInsert : Prop :=
  ∀ (i : Instr) (b : Byte) (s : State), wireByte i = some b → exec i s = exec (.decInsert b) s

/-! ### Decoder: reading -/

/-- R16, R92: DEC.IS_COMPLETED, whose command words are those with op = 3, answers Ok with flag = DONE and changes no state;
DONE is false after reset; and after any instruction from a state of the invariant DONE is true exactly where it was true
and the instruction neither inserts a byte nor resets the decoder, or where the instruction inserts END in state
Accumulating with DONE false and ACC non-empty. -/
def Obligations.IsCompletedReportsDoneFromEndToNextInsert : Prop :=
  (∀ (e : Bool) (w : CmdWord), w &&& 0x700#11 = 0x300#11 → decode e (.cmd w) = .ok .decIsCompleted) ∧
  (∀ s : State, ∃ r : Response, r.status = .ok ∧ r.flag = some s.done ∧
    exec .decIsCompleted s = .next { s with reply := some (.op r) }) ∧
  State.reset.done = false ∧
  (∀ (i : Instr) (s t : State), s.Inv → exec i s = .next t →
    (t.done = true ↔
      (s.done = true ∧ wireByte i = none ∧ i ≠ .decReset) ∨
      (wireByte i = some 0xC0#8 ∧ s.escp = false ∧ s.done = false ∧ 1 ≤ s.acc.length)))

/-- R93: DEC.GET_BUFFER, whose command words are those with op = 4, answers Ok with view = ACC, completed or not, and changes
no state. -/
def Obligations.GetBufferReturnsAccumulator : Prop :=
  (∀ (e : Bool) (w : CmdWord), w &&& 0x700#11 = 0x400#11 → decode e (.cmd w) = .ok .decGetBuffer) ∧
  (∀ s : State, ∃ r : Response, r.status = .ok ∧ r.view = some s.acc ∧
    exec .decGetBuffer s = .next { s with reply := some (.op r) })

/-- R15: ESCP is false after reset. From a state of the invariant it goes from false to true exactly on ESC in state
Accumulating. It goes from true to false exactly on DEC.RESET, on ESC_END or ESC_ESC with room in ACC, and on the failing
inserts under DISCARD or DROP. Only an insert reads it: every other instruction answers alike whatever it is. -/
def Obligations.EscpIsSetByEscAndHiddenFromReads : Prop :=
  State.reset.escp = false ∧
  (∀ (i : Instr) (s t : State), s.Inv → exec i s = .next t → s.escp = false →
    (t.escp = true ↔ wireByte i = some 0xDB#8)) ∧
  (∀ (i : Instr) (s t : State), s.Inv → exec i s = .next t → s.escp = true →
    (t.escp = false ↔
      i = .decReset ∨
      ((wireByte i = some 0xDC#8 ∨ wireByte i = some 0xDD#8) ∧ s.acc.length < s.params.decCap) ∨
      ((wireByte i = some 0xDC#8 ∨ wireByte i = some 0xDD#8) ∧ s.acc.length = s.params.decCap ∧
        s.params.escOvfPolicy = .drop) ∨
      (∃ b, wireByte i = some b ∧ b ≠ 0xDC#8 ∧ b ≠ 0xDD#8 ∧ s.params.escFaultPolicy = .discard))) ∧
  (∀ (i : Instr) (s t : State) (v : Bool), wireByte i = none → exec i s = .next t →
    ∃ t', exec i { s with escp := v } = .next t' ∧ t'.reply = t.reply ∧ t'.ebuf = t.ebuf ∧ t'.acc = t.acc ∧
      t'.done = t.done)

/-! ### Errors -/

/-- R101, R102: the two errors have the codes 1 and 2. From a state of the invariant, CapacityExceeded is answered exactly
by ENCODE of a frame too long, by an insert of a data byte in state Accumulating with ACC full, and by an insert of DC or
DD in state EscapePending with ACC full; InvalidEscapeSequence is answered exactly by an insert of any other byte in state
EscapePending. -/
def Obligations.ErrorsAreRaisedExactlyAtTheirSites : Prop :=
  statusCode (.error .capacityExceeded) = 1#2 ∧ statusCode (.error .invalidEscapeSequence) = 2#2 ∧
  ∀ (i : Instr) (s t : State), s.Inv → exec i s = .next t →
    (replyStatus t.reply = some (.error .capacityExceeded) ↔
      (i = .encode ∧ s.ebuf.length + s.ebuf.countP (fun b => b = 0xC0#8 ∨ b = 0xDB#8) + 2 > s.params.encCap) ∨
      (∃ b, wireByte i = some b ∧ b ≠ 0xC0#8 ∧ b ≠ 0xDB#8 ∧ s.escp = false ∧ s.done = false ∧
        s.acc.length = s.params.decCap) ∨
      (∃ b, wireByte i = some b ∧ (b = 0xDC#8 ∨ b = 0xDD#8) ∧ s.escp = true ∧
        s.acc.length = s.params.decCap)) ∧
    (replyStatus t.reply = some (.error .invalidEscapeSequence) ↔
      ∃ b, wireByte i = some b ∧ b ≠ 0xDC#8 ∧ b ≠ 0xDD#8 ∧ s.escp = true)

/-- R104: after an error, from a state of the invariant, EBUF, ACC and DONE are unchanged and DONE is false after a decoder
error; ESCP is unchanged but for the two failing inserts in state EscapePending, where it is what ESC_OVF_POLICY says after
CapacityExceeded and what ESC_FAULT_POLICY says after InvalidEscapeSequence. -/
def Obligations.StateAfterErrorIsPrecise : Prop :=
  ∀ (i : Instr) (s t : State) (e : SlipError), s.Inv → exec i s = .next t → replyStatus t.reply = some (.error e) →
    t.ebuf = s.ebuf ∧ t.acc = s.acc ∧ t.done = s.done ∧ t.params = s.params ∧ t.input = s.input ∧
    (i = .encode → e = .capacityExceeded ∧ t.escp = s.escp) ∧
    (∀ b, wireByte i = some b → s.done = false ∧
      (s.escp = false → t.escp = false) ∧
      (s.escp = true → e = .capacityExceeded →
        (s.params.escOvfPolicy = .hold → t.escp = true) ∧ (s.params.escOvfPolicy = .drop → t.escp = false)) ∧
      (s.escp = true → e = .invalidEscapeSequence →
        (s.params.escFaultPolicy = .hold → t.escp = true) ∧ (s.params.escFaultPolicy = .discard → t.escp = false)))

/-- Every operation, WIRE row and STUFF row answers a next state from every state: none blocks, faults or is refused,
after an error as before one. For the operations this is the spec's. That the WIRE rows answer in every state, and that the
STUFF rows answer at all, is the model's choice, log entries 9 and 10. -/
def Obligations.EveryWellFormedInstructionAnswers : Prop :=
  ∀ (i : Instr) (s : State), i.wf = true → ∃ t, exec i s = .next t ∧ t.reply.isSome = true

/-- A step that answers no next state is refused, and only in these cases, each under its own name: the oldest input is a
command word with a reserved code, a read by the caller at or beyond the length of EBUF, or a replace by the caller that is
longer than ENC_CAP. A step never faults. That a step is refused in each of these cases is said by
ReservedCodesAreRefusedByName and CallerAccessesReadAndWriteEbuf. -/
def Obligations.StepStopsOnlyOnReservedCodesAndBadAccesses : Prop :=
  ∀ s : State,
    (∀ f, step s ≠ .fault f) ∧
    ((∃ t, step s = .next t) ∨
     (∃ w rest, s.input = .word (.cmd w) :: rest ∧ w &&& 0x700#11 = 0x500#11 ∧ step s = .refused .reservedCode5) ∨
     (∃ w rest, s.input = .word (.cmd w) :: rest ∧ w &&& 0x700#11 = 0x600#11 ∧ step s = .refused .reservedCode6) ∨
     (∃ w rest, s.input = .word (.cmd w) :: rest ∧ w &&& 0x700#11 = 0x700#11 ∧ step s = .refused .reservedCode7) ∨
     (∃ k rest, s.input = .access (.get k) :: rest ∧ s.ebuf.length ≤ k ∧ step s = .refused .bufGetOutOfRange) ∨
     (∃ bs rest, s.input = .access (.replace bs) :: rest ∧ s.params.encCap < bs.length ∧
       step s = .refused .bufReplaceTooLong))

/-- R60: a command word whose code is 5, 6 or 7 is refused by the decoder under the code's own name, whatever data is, and the
step that would take it answers no next state; the three rows are refused under the same names. -/
def Obligations.ReservedCodesAreRefusedByName : Prop :=
  (∀ (e : Bool) (w : CmdWord),
    (w &&& 0x700#11 = 0x500#11 → decode e (.cmd w) = .error .reserved5) ∧
    (w &&& 0x700#11 = 0x600#11 → decode e (.cmd w) = .error .reserved6) ∧
    (w &&& 0x700#11 = 0x700#11 → decode e (.cmd w) = .error .reserved7)) ∧
  (∀ (s : State) (w : CmdWord) (rest : List Input), s.input = .word (.cmd w) :: rest →
    (w &&& 0x700#11 = 0x500#11 → step s = .refused .reservedCode5) ∧
    (w &&& 0x700#11 = 0x600#11 → step s = .refused .reservedCode6) ∧
    (w &&& 0x700#11 = 0x700#11 → step s = .refused .reservedCode7)) ∧
  (∀ s : State, exec .reserved5 s = .refused .reservedCode5 ∧ exec .reserved6 s = .refused .reservedCode6 ∧
    exec .reserved7 s = .refused .reservedCode7)

/-! ### What an instruction leaves alone -/

/-- R2: an operation of one unit reads and writes only that unit's state. ENCODE leaves ACC, ESCP and DONE, byte by byte,
and its result and EBUF afterwards are the same from two states that agree on EBUF. An operation of the decoder leaves EBUF,
byte by byte, and its result and the decoder afterwards are the same from two states that agree on the decoder. -/
def Obligations.UnitsShareNoState : Prop :=
  (∀ s t : State, exec .encode s = .next t →
    t.params = s.params ∧ t.input = s.input ∧ t.escp = s.escp ∧ t.done = s.done ∧ t.acc.length = s.acc.length ∧
    ∀ k, t.readByte .acc k = s.readByte .acc k) ∧
  (∀ s s' t : State, s.SameEnc s' → exec .encode s = .next t →
    ∃ t', exec .encode s' = .next t' ∧ t.SameEnc t' ∧ t.reply = t'.reply) ∧
  (∀ (i : Instr) (s t : State), i.isDec = true → exec i s = .next t →
    t.params = s.params ∧ t.input = s.input ∧ t.ebuf.length = s.ebuf.length ∧
    ∀ k, t.readByte .ebuf k = s.readByte .ebuf k) ∧
  (∀ (i : Instr) (s s' t : State), i.isDec = true → s.SameDec s' → exec i s = .next t →
    ∃ t', exec i s' = .next t' ∧ t.SameDec t' ∧ t.reply = t'.reply)

/-- The frame of an insert that finds DONE false: the one cell it may write is the cell of ACC at index |ACC|; every other
cell of ACC and every cell of EBUF reads as before, and ACC never gets shorter. -/
def Obligations.InsertWritesOnlyTheNextCell : Prop :=
  ∀ (i : Instr) (b : Byte) (s t : State), wireByte i = some b → s.done = false → exec i s = .next t →
    (∀ k, k ≠ s.acc.length → t.readByte .acc k = s.readByte .acc k) ∧
    (∀ k, t.readByte .ebuf k = s.readByte .ebuf k) ∧
    (t.acc.length = s.acc.length ∨ t.acc.length = s.acc.length + 1) ∧
    t.params = s.params ∧ t.input = s.input

/-- The frame of the instructions that store nothing, DEC.IS_COMPLETED, DEC.GET_BUFFER and the STUFF rows: every cell of both
buffers reads as before, both flags, the parameters and the inputs are unchanged; issued again, they answer the same. For
the two operations this is the spec's. That a STUFF row changes no buffer and no flag and may be repeated is the model's
choice, log entry 10. -/
def Obligations.ReadsChangeNothing : Prop :=
  ∀ (i : Instr) (s t : State),
    i = .decIsCompleted ∨ i = .decGetBuffer ∨ i = .stuffEnd ∨ i = .stuffEsc ∨ (∃ b, i = .stuffPlain b) →
    exec i s = .next t →
    (∀ n k, t.readByte n k = s.readByte n k) ∧ t.SameArch s ∧ t.input = s.input ∧ exec i t = .next t

/-- ENCODE and an operation of the decoder commute: in either order they lead to the same buffers and flags. -/
def Obligations.EncodeCommutesWithDecoderOperations : Prop :=
  ∀ (i : Instr) (s t u : State), i.isDec = true → exec .encode s = .next t → exec i t = .next u →
    ∃ t' u', exec i s = .next t' ∧ exec .encode t' = .next u' ∧ u.SameArch u' ∧ t'.reply = u.reply ∧ u'.reply = t.reply

/-- Every step that answers a next state keeps the parameters and takes exactly the oldest input. That a step takes from a
list of inputs is the model's choice, log entry 5. -/
def Obligations.StepKeepsParametersAndTakesOneInput : Prop :=
  ∀ s t : State, step s = .next t → t.params = s.params ∧ t.input = s.input.tail

/-! ### Encodings -/

/-- A few command words, wire bytes and payload bytes written out from the tables of the spec, and what they decode to. -/
def Obligations.WrittenOutWordsDecode : Prop :=
  decode false (.cmd 0b00000000000#11) = .ok .encode ∧
  decode false (.cmd 0b00111111111#11) = .ok .decReset ∧
  decode true (.cmd 0b01011000000#11) = .ok (.decInsert 0xC0#8) ∧
  decode false (.cmd 0b01110100101#11) = .ok .decIsCompleted ∧
  decode true (.cmd 0b10000000000#11) = .ok .decGetBuffer ∧
  decode false (.cmd 0b11010100101#11) = .error .reserved6 ∧
  decode false (.wire 0b11000000#8) = .ok .wireEnd ∧
  decode true (.wire 0b11000000#8) = .ok (.wireBadEsc 0xC0#8) ∧
  decode true (.wire 0b11011101#8) = .ok .wireEscEsc ∧
  decode false (.payload 0b11011011#8) = .ok .stuffEsc

/-- R57: two command words that agree on op = CMD[10:8] decode alike unless they are DEC.INSERT, whose byte is
data = CMD[7:0] as it stands: bit k of the byte is bit k of the word. -/
def Obligations.DataFieldIsReadByDecInsertOnly : Prop :=
  (∀ (e : Bool) (w w' : CmdWord), w &&& 0x700#11 = w' &&& 0x700#11 → w &&& 0x700#11 ≠ 0x200#11 →
    decode e (.cmd w) = decode e (.cmd w')) ∧
  (∀ (e : Bool) (w : CmdWord), w &&& 0x700#11 = 0x200#11 →
    ∃ b : Byte, decode e (.cmd w) = .ok (.decInsert b) ∧ ∀ k, k < 8 → b.getLsbD k = w.getLsbD k)

/-- Decode and encode agree: for every well-formed instruction, at every value of its operand, its word decodes to it, in
the decoder state its format names where it names one and in both where it does not. -/
def Obligations.DecodeOfEncodeIsTheInstruction : Prop :=
  ∀ (i : Instr) (e : Bool), i.wf = true → contextEscp i = none ∨ contextEscp i = some e → decode e (encode i) = .ok i

/-- Encode and decode agree: what any word decodes to is well-formed and its format's decoder state is the decoder's; its own
word is that word, but for the ignored data of a command other than DEC.INSERT, which is 0. -/
def Obligations.EncodeOfDecodeIsTheWord : Prop :=
  ∀ (e : Bool) (x : CodeWord) (i : Instr), decode e x = .ok i →
    i.wf = true ∧ (contextEscp i = none ∨ contextEscp i = some e) ∧
    (encode i = x ∨ ∃ w : CmdWord, x = .cmd w ∧ w &&& 0x700#11 ≠ 0x200#11 ∧ encode i = .cmd (w &&& 0x700#11))

/-! ### Steps -/

/-- A step runs the decoded instruction: where the oldest input is a word that decodes to i in the decoder's state, the step is
exec of i on the state with that input taken; with nothing presented the step changes nothing. That a
step takes from a list of inputs is the model's choice, log entry 5. -/
def Obligations.StepRunsTheDecodedInstruction : Prop :=
  (∀ (s : State) (x : CodeWord) (rest : List Input) (i : Instr), s.input = .word x :: rest →
    decode s.escp x = .ok i → step s = exec i { s with input := rest }) ∧
  (∀ s : State, s.input = [] → step s = .next s)

/-- A word of the opcode table that decodes, presented next, is what the very next step runs, on the state as it was but for
ESCP, which is the value the row's format names where it names one and otherwise as it was. The model's choice, log entry
11. -/
def Obligations.PresentedTableWordRunsNext : Prop :=
  ∀ (s : State) (nbits w : Nat) (i : Instr), decodeTableWord nbits w = some i →
    ∃ e : Bool, (contextEscp i = some e ∨ (contextEscp i = none ∧ e = s.escp)) ∧
      step (s.withFetchWord nbits w) = exec i { s with escp := e }

/-- The caller's accesses to EBUF as steps: BufLen and BufCap answer the length and the capacity, BufGet below the length
answers that byte and elsewhere is refused, BufPush appends where there is room and changes nothing where there is none,
BufReplace overwrites the content where it fits and is refused elsewhere. The form of the answers is the model's choice, log
entry 14. -/
def Obligations.CallerAccessesReadAndWriteEbuf : Prop :=
  ∀ (s : State) (rest : List Input),
    (s.input = .access .len :: rest → step s = .next { s with input := rest, reply := some (.size s.ebuf.length) }) ∧
    (s.input = .access .cap :: rest → step s = .next { s with input := rest, reply := some (.size s.params.encCap) }) ∧
    (∀ (k : Nat) (h : k < s.ebuf.length), s.input = .access (.get k) :: rest →
      step s = .next { s with input := rest, reply := some (.byte s.ebuf[k]) }) ∧
    (∀ k, s.ebuf.length ≤ k → s.input = .access (.get k) :: rest → step s = .refused .bufGetOutOfRange) ∧
    (∀ b, s.input = .access (.push b) :: rest → s.ebuf.length < s.params.encCap →
      step s = .next { s with input := rest, ebuf := s.ebuf ++ [b], reply := some (.pushed true) }) ∧
    (∀ b, s.input = .access (.push b) :: rest → s.ebuf.length = s.params.encCap →
      step s = .next { s with input := rest, reply := some (.pushed false) }) ∧
    (∀ bs, s.input = .access (.replace bs) :: rest → bs.length ≤ s.params.encCap →
      step s = .next { s with input := rest, ebuf := bs, reply := some .replaced }) ∧
    (∀ bs, s.input = .access (.replace bs) :: rest → s.params.encCap < bs.length →
      step s = .refused .bufReplaceTooLong)

/-- Every step keeps the invariant: both buffers within their capacities, a completed packet leaves no escape pending and is
not empty. -/
def Obligations.EveryStepKeepsInvariant : Prop :=
  ∀ s t : State, s.Inv → step s = .next t → t.Inv

/-- The invariant holds at power-on of every instance whose EBUF_INIT fits, and at reset. -/
def Obligations.PowerOnMeetsInvariant : Prop :=
  (∀ p : Params, p.wf → (State.powerOn p).Inv) ∧ State.reset.Inv

/-! ### Streams of bytes -/

/-- Inserting the stuffed image of a payload, from state Accumulating with DONE false and room for the payload, appends the
payload to ACC, whatever its bytes: no error, no escape left pending, no completion; EBUF and the parameters unchanged. -/
def Obligations.InsertingStuffedPayloadAppendsIt : Prop :=
  ∀ (P : List Byte) (s : State), s.escp = false → s.done = false → s.acc.length + P.length ≤ s.params.decCap →
    ∃ t, insertAll (stuffAll P) s = .next t ∧ t.acc = s.acc ++ P ∧ t.escp = false ∧ t.done = false ∧
      t.ebuf = s.ebuf ∧ t.params = s.params ∧ (P ≠ [] → replyStatus t.reply = some .ok)

/-- Packets in sequence on one decoder, from its initial state, for payloads that are non-empty and within DEC_CAP: without a
leading END, as two frames back to back, and as two frames that share a delimiter, the last packet is delivered with no
residue of the one before it. -/
def Obligations.PacketsFollowWithoutResidue : Prop :=
  ∀ (P Q : List Byte) (s : State), s.acc = [] → s.escp = false → s.done = false → P ≠ [] → Q ≠ [] →
    P.length ≤ s.params.decCap → Q.length ≤ s.params.decCap →
    (∃ t, insertAll (stuffAll P ++ [END]) s = .next t ∧ t.acc = P ∧ t.escp = false ∧ t.done = true ∧
      replyStatus t.reply = some .ok) ∧
    (∃ t, insertAll (frame P ++ frame Q) s = .next t ∧ t.acc = Q ∧ t.escp = false ∧ t.done = true ∧
      replyStatus t.reply = some .ok) ∧
    (∃ t, insertAll ([END] ++ stuffAll P ++ [END] ++ stuffAll Q ++ [END]) s = .next t ∧ t.acc = Q ∧ t.escp = false ∧
      t.done = true ∧ replyStatus t.reply = some .ok)

/-- A frame whose payload is longer than DEC_CAP: from the decoder's initial state the inserts go well until the one that
would append payload byte number DEC_CAP + 1, which answers CapacityExceeded; ACC then holds the first DEC_CAP bytes of the
payload and DONE is false. -/
def Obligations.FrameTooLongForDecoderOverflows : Prop :=
  ∀ (P : List Byte) (s : State), s.acc = [] → s.escp = false → s.done = false → s.params.decCap < P.length →
    ∃ t, insertAll (frame P) s = .next t ∧ replyStatus t.reply = some (.error .capacityExceeded) ∧
      t.acc = P.take s.params.decCap ∧ t.done = false

/-- The round trip, for every payload in EBUF whose frame fits ENC_CAP and which fits DEC_CAP, from any state of the decoder:
ENCODE answers Ok; inserting the frame into the reset decoder answers Ok to the last byte; DECODE of the frame ends with view
and ACC equal to the payload, no escape pending, and DONE true exactly where the payload is not empty. -/
def Obligations.DecodingAnEncodedPayloadGivesItBack : Prop :=
  ∀ s : State, frameLength s.ebuf ≤ s.params.encCap → s.ebuf.length ≤ s.params.decCap →
    ∃ t u v, exec .encode s = .next t ∧ replyStatus t.reply = some .ok ∧
      insertAll t.ebuf { t with acc := [], escp := false, done := false } = .next u ∧ replyStatus u.reply = some .ok ∧
      decodeStream t.ebuf t = .next v ∧ v.acc = s.ebuf ∧ v.escp = false ∧ (v.done = true ↔ s.ebuf ≠ []) ∧
      (∃ r : Response, v.reply = some (.op r) ∧ r.status = .ok ∧ r.view = some s.ebuf)
end

