-- ==== Sys2Proof/Laws/Wire.lean ====
section
/-! SUPPORT. Small lemmas about the frame constants, byte stuffing and the byte classes. -/

namespace Sys2Proof.Machine

/-- The frame constants are pairwise distinct (R50), in the form simp asks for. -/
theorem constants_distinct : ESC ≠ END ∧ ESC_END ≠ END ∧ ESC_ESC ≠ END ∧ ESC_END ≠ ESC ∧ ESC_ESC ≠ ESC ∧
    ESC_ESC ≠ ESC_END := by decide

theorem isSpecial_iff {b : Byte} : isSpecial b = true ↔ b = END ∨ b = ESC := by simp [isSpecial]

/-- What a payload byte is stuffed into, with its share of count_special (R53). -/
theorem stuff_cases (b : Byte) :
    (b = END ∧ isSpecial b = true ∧ stuff b = [ESC, ESC_END]) ∨
    (b = ESC ∧ isSpecial b = true ∧ stuff b = [ESC, ESC_ESC]) ∨
    (b ≠ END ∧ b ≠ ESC ∧ isSpecial b = false ∧ stuff b = [b]) := by
  by_cases h : b = END
  · subst h; exact .inl (by decide)
  · by_cases h' : b = ESC
    · subst h'; exact .inr (.inl (by decide))
    · exact .inr (.inr ⟨h, h', by simp [isSpecial, h, h'], by simp [stuff, h, h']⟩)

/-- The six classes, each with what it says of the state and the byte (R55). -/
theorem classify_cases (escp : Bool) (b : Byte) :
    (classify escp b = .endByte ∧ escp = false ∧ b = END) ∨
    (classify escp b = .escByte ∧ escp = false ∧ b = ESC) ∨
    (classify escp b = .data ∧ escp = false ∧ b ≠ END ∧ b ≠ ESC) ∨
    (classify escp b = .escEnd ∧ escp = true ∧ b = ESC_END) ∨
    (classify escp b = .escEsc ∧ escp = true ∧ b = ESC_ESC) ∨
    (classify escp b = .badEsc ∧ escp = true ∧ b ≠ ESC_END ∧ b ≠ ESC_ESC) := by
  cases escp
  · by_cases h : b = END
    · subst h; exact .inl (by decide)
    · by_cases h' : b = ESC
      · subst h'; exact .inr (.inl (by decide))
      · exact .inr (.inr (.inl ⟨by simp [classify, h, h'], rfl, h, h'⟩))
  · by_cases h : b = ESC_END
    · subst h; exact .inr (.inr (.inr (.inl (by decide))))
    · by_cases h' : b = ESC_ESC
      · subst h'; exact .inr (.inr (.inr (.inr (.inl (by decide)))))
      · exact .inr (.inr (.inr (.inr (.inr ⟨by simp [classify, h, h'], rfl, h, h'⟩))))

end Sys2Proof.Machine
end

