-- ==== Sys2Proof/Laws/Decode.lean ====
section
/-! SUPPORT. Small lemmas about the fields of a command word, the byte classes and the decoder's totality. -/

namespace Sys2Proof

open Machine

/-- A bit of a command word comes from data below bit 8 and from op from bit 8 on (R57). -/
theorem getLsbD_cmdWord (op : BitVec 3) (data : Byte) (i : Nat) :
    (cmdWord op data).getLsbD i = if i < 8 then data.getLsbD i else op.getLsbD (i - 8) :=
  BitVec.getLsbD_append.trans (by split <;> simp_all)

@[simp] theorem opField_cmdWord (op : BitVec 3) (data : Byte) : opField (cmdWord op data) = op := by
  apply BitVec.eq_of_getLsbD_eq
  intro i hi
  simp [opField, getLsbD_cmdWord, hi]

@[simp] theorem dataField_cmdWord (op : BitVec 3) (data : Byte) : dataField (cmdWord op data) = data := by
  apply BitVec.eq_of_getLsbD_eq
  intro i hi
  simp [dataField, getLsbD_cmdWord, hi]

/-- What a command word decodes to, by its op field (R58). -/
theorem decodeCmd_cases (w : CmdWord) :
    (opField w = 0#3 ∧ decodeCmd w = .ok .encode) ∨
    (opField w = 1#3 ∧ decodeCmd w = .ok .decReset) ∨
    (opField w = 2#3 ∧ decodeCmd w = .ok (.decInsert (dataField w))) ∨
    (opField w = 3#3 ∧ decodeCmd w = .ok .decIsCompleted) ∨
    (opField w = 4#3 ∧ decodeCmd w = .ok .decGetBuffer) ∨
    (opField w = 5#3 ∧ decodeCmd w = .error .reserved5) ∨
    (opField w = 6#3 ∧ decodeCmd w = .error .reserved6) ∨
    (opField w = 7#3 ∧ decodeCmd w = .error .reserved7) := by
  have key : ∀ o : BitVec 3, o = 0#3 ∨ o = 1#3 ∨ o = 2#3 ∨ o = 3#3 ∨ o = 4#3 ∨ o = 5#3 ∨ o = 6#3 ∨ o = 7#3 := by
    decide
  rcases key (opField w) with h | h | h | h | h | h | h | h <;> simp [decodeCmd, h]

/-- What a wire byte decodes to in each decoder state (R55). -/
theorem decodeWire_cases (escp : Bool) (b : Byte) :
    (escp = false ∧ b = END ∧ decodeWire escp b = .wireEnd) ∨
    (escp = false ∧ b = ESC ∧ decodeWire escp b = .wireEsc) ∨
    (escp = false ∧ b ≠ END ∧ b ≠ ESC ∧ decodeWire escp b = .wireData b) ∨
    (escp = true ∧ b = ESC_END ∧ decodeWire escp b = .wireEscEnd) ∨
    (escp = true ∧ b = ESC_ESC ∧ decodeWire escp b = .wireEscEsc) ∨
    (escp = true ∧ b ≠ ESC_END ∧ b ≠ ESC_ESC ∧ decodeWire escp b = .wireBadEsc b) := by
  unfold decodeWire
  rcases classify_cases escp b with
    ⟨hc, he, hb⟩ | ⟨hc, he, hb⟩ | ⟨hc, he, h1, h2⟩ | ⟨hc, he, hb⟩ | ⟨hc, he, hb⟩ | ⟨hc, he, h1, h2⟩ <;> rw [hc]
  · exact .inl ⟨he, hb, rfl⟩
  · exact .inr (.inl ⟨he, hb, rfl⟩)
  · exact .inr (.inr (.inl ⟨he, h1, h2, rfl⟩))
  · exact .inr (.inr (.inr (.inl ⟨he, hb, rfl⟩)))
  · exact .inr (.inr (.inr (.inr (.inl ⟨he, hb, rfl⟩))))
  · exact .inr (.inr (.inr (.inr (.inr ⟨he, h1, h2, rfl⟩))))

end Sys2Proof
end

