-- ==== Sys2Proof/Laws/State.lean ====
section
/-! SUPPORT. One lemma per field of State per update: what the update makes of the field. -/

namespace Sys2Proof.Machine.State

@[simp] theorem withEbuf_params (s : State) (v : Buffer) : (s.withEbuf v).params = s.params := rfl
@[simp] theorem withEbuf_ebuf (s : State) (v : Buffer) : (s.withEbuf v).ebuf = v := rfl
@[simp] theorem withEbuf_acc (s : State) (v : Buffer) : (s.withEbuf v).acc = s.acc := rfl
@[simp] theorem withEbuf_escp (s : State) (v : Buffer) : (s.withEbuf v).escp = s.escp := rfl
@[simp] theorem withEbuf_done (s : State) (v : Buffer) : (s.withEbuf v).done = s.done := rfl
@[simp] theorem withEbuf_input (s : State) (v : Buffer) : (s.withEbuf v).input = s.input := rfl
@[simp] theorem withEbuf_reply (s : State) (v : Buffer) : (s.withEbuf v).reply = s.reply := rfl

@[simp] theorem withAcc_params (s : State) (v : Buffer) : (s.withAcc v).params = s.params := rfl
@[simp] theorem withAcc_ebuf (s : State) (v : Buffer) : (s.withAcc v).ebuf = s.ebuf := rfl
@[simp] theorem withAcc_acc (s : State) (v : Buffer) : (s.withAcc v).acc = v := rfl
@[simp] theorem withAcc_escp (s : State) (v : Buffer) : (s.withAcc v).escp = s.escp := rfl
@[simp] theorem withAcc_done (s : State) (v : Buffer) : (s.withAcc v).done = s.done := rfl
@[simp] theorem withAcc_input (s : State) (v : Buffer) : (s.withAcc v).input = s.input := rfl
@[simp] theorem withAcc_reply (s : State) (v : Buffer) : (s.withAcc v).reply = s.reply := rfl

@[simp] theorem withEscp_params (s : State) (v : Bool) : (s.withEscp v).params = s.params := rfl
@[simp] theorem withEscp_ebuf (s : State) (v : Bool) : (s.withEscp v).ebuf = s.ebuf := rfl
@[simp] theorem withEscp_acc (s : State) (v : Bool) : (s.withEscp v).acc = s.acc := rfl
@[simp] theorem withEscp_escp (s : State) (v : Bool) : (s.withEscp v).escp = v := rfl
@[simp] theorem withEscp_done (s : State) (v : Bool) : (s.withEscp v).done = s.done := rfl
@[simp] theorem withEscp_input (s : State) (v : Bool) : (s.withEscp v).input = s.input := rfl
@[simp] theorem withEscp_reply (s : State) (v : Bool) : (s.withEscp v).reply = s.reply := rfl

@[simp] theorem withDone_params (s : State) (v : Bool) : (s.withDone v).params = s.params := rfl
@[simp] theorem withDone_ebuf (s : State) (v : Bool) : (s.withDone v).ebuf = s.ebuf := rfl
@[simp] theorem withDone_acc (s : State) (v : Bool) : (s.withDone v).acc = s.acc := rfl
@[simp] theorem withDone_escp (s : State) (v : Bool) : (s.withDone v).escp = s.escp := rfl
@[simp] theorem withDone_done (s : State) (v : Bool) : (s.withDone v).done = v := rfl
@[simp] theorem withDone_input (s : State) (v : Bool) : (s.withDone v).input = s.input := rfl
@[simp] theorem withDone_reply (s : State) (v : Bool) : (s.withDone v).reply = s.reply := rfl

@[simp] theorem withInput_params (s : State) (v : List Input) : (s.withInput v).params = s.params := rfl
@[simp] theorem withInput_ebuf (s : State) (v : List Input) : (s.withInput v).ebuf = s.ebuf := rfl
@[simp] theorem withInput_acc (s : State) (v : List Input) : (s.withInput v).acc = s.acc := rfl
@[simp] theorem withInput_escp (s : State) (v : List Input) : (s.withInput v).escp = s.escp := rfl
@[simp] theorem withInput_done (s : State) (v : List Input) : (s.withInput v).done = s.done := rfl
@[simp] theorem withInput_input (s : State) (v : List Input) : (s.withInput v).input = v := rfl
@[simp] theorem withInput_reply (s : State) (v : List Input) : (s.withInput v).reply = s.reply := rfl

@[simp] theorem withReply_params (s : State) (v : Option Reply) : (s.withReply v).params = s.params := rfl
@[simp] theorem withReply_ebuf (s : State) (v : Option Reply) : (s.withReply v).ebuf = s.ebuf := rfl
@[simp] theorem withReply_acc (s : State) (v : Option Reply) : (s.withReply v).acc = s.acc := rfl
@[simp] theorem withReply_escp (s : State) (v : Option Reply) : (s.withReply v).escp = s.escp := rfl
@[simp] theorem withReply_done (s : State) (v : Option Reply) : (s.withReply v).done = s.done := rfl
@[simp] theorem withReply_input (s : State) (v : Option Reply) : (s.withReply v).input = s.input := rfl
@[simp] theorem withReply_reply (s : State) (v : Option Reply) : (s.withReply v).reply = v := rfl

@[simp] theorem buffer_ebuf (s : State) : s.buffer .ebuf = s.ebuf := rfl
@[simp] theorem buffer_acc (s : State) : s.buffer .acc = s.acc := rfl
@[simp] theorem bufCap_ebuf (s : State) : s.bufCap .ebuf = s.params.encCap := rfl
@[simp] theorem bufCap_acc (s : State) : s.bufCap .acc = s.params.decCap := rfl

@[simp] theorem powerOn_params (p : Params) : (powerOn p).params = p := rfl
@[simp] theorem powerOn_ebuf (p : Params) : (powerOn p).ebuf = p.ebufInit := rfl
@[simp] theorem powerOn_acc (p : Params) : (powerOn p).acc = [] := rfl
@[simp] theorem powerOn_escp (p : Params) : (powerOn p).escp = false := rfl
@[simp] theorem powerOn_done (p : Params) : (powerOn p).done = false := rfl
@[simp] theorem powerOn_input (p : Params) : (powerOn p).input = [] := rfl
@[simp] theorem powerOn_reply (p : Params) : (powerOn p).reply = none := rfl

end Sys2Proof.Machine.State
end

