-- ==== Sys2Proof/Laws/Ops.lean ====
section
/-! SUPPORT. One spec lemma per shared operation: everything it can answer. Later proofs cite these and do not unfold the
operations. -/

namespace Sys2Proof.Machine

/-! ### The buffer primitives -/

theorem bufPush_eq_some {cap : Nat} {b c : Buffer} {x : Byte} :
    bufPush cap b x = some c ↔ b.length < cap ∧ c = b ++ [x] := by
  unfold bufPush
  split
  · rename_i h
    simp [h, eq_comm]
  · rename_i h
    simp [h]

theorem bufPush_eq_none {cap : Nat} {b : Buffer} {x : Byte} : bufPush cap b x = none ↔ cap ≤ b.length := by
  unfold bufPush
  split
  · rename_i h
    simp [h]
  · rename_i h
    simpa using h

theorem bufReplace_eq_some {cap : Nat} {bs : List Byte} {c : Buffer} :
    bufReplace cap bs = some c ↔ bs.length ≤ cap ∧ c = bs := by
  unfold bufReplace
  split
  · rename_i h
    simp [h, eq_comm]
  · rename_i h
    simp [h]

theorem bufReplace_eq_none {cap : Nat} {bs : List Byte} : bufReplace cap bs = none ↔ cap < bs.length := by
  unfold bufReplace
  split
  · rename_i h
    simp [h]
  · rename_i h
    simpa using h

/-- Clearing a buffer is a replace with the empty sequence, which always fits (R36). -/
theorem bufReplace_nil (cap : Nat) : bufReplace cap [] = some [] :=
  bufReplace_eq_some.mpr ⟨Nat.zero_le _, rfl⟩

/-! ### Every memory operation keeps the form -/

theorem wf_nil (cap : Nat) : Memory.wf cap [] = true := decide_eq_true (Nat.zero_le cap)

theorem wf_bufPush {cap : Nat} {b c : Buffer} {x : Byte} (h : bufPush cap b x = some c) : Memory.wf cap c = true := by
  obtain ⟨hlt, rfl⟩ := bufPush_eq_some.mp h
  simpa [Memory.wf] using hlt

theorem wf_bufReplace {cap : Nat} {bs : List Byte} {c : Buffer} (h : bufReplace cap bs = some c) :
    Memory.wf cap c = true := by
  obtain ⟨hle, rfl⟩ := bufReplace_eq_some.mp h
  simpa [Memory.wf] using hle

theorem wf_reset : Memory.wf State.reset.params.encCap State.reset.ebuf = true ∧
    Memory.wf State.reset.params.decCap State.reset.acc = true := by decide

/-- The cells of a buffer stand at strictly rising addresses. -/
theorem cells_rising (b : Buffer) : (cells b).Pairwise fun c d => c.1 < d.1 := by
  have h : ∀ (l : Buffer) (n : Nat), (l.zipIdx n).Pairwise fun p q => p.2 < q.2 := by
    intro l
    induction l with
    | nil => intro n; simp
    | cons x l ih =>
      intro n
      rw [List.zipIdx_cons, List.pairwise_cons]
      refine ⟨fun q hq => ?_, ih (n + 1)⟩
      have := List.le_snd_of_mem_zipIdx hq
      simpa using this
  exact List.pairwise_map.mpr (h b 0)

/-! ### Answers -/

theorem answer_eq (r : Reply) (s : State) : answer r s = .next (s.withReply (some r)) := rfl

theorem finish_eq (s : State) : finish s = .next (s.withReply (some (.op okResponse))) := rfl

theorem raise_eq (e : SlipError) (s : State) : raise e s = .next (s.withReply (some (.op (errorResponse e)))) := rfl

/-! ### The implicit reset -/

theorem implicitReset_of_done {s : State} (h : s.done = true) :
    implicitReset s = (s.withAcc []).withDone false := by simp [implicitReset, h]

theorem implicitReset_of_not_done {s : State} (h : s.done = false) : implicitReset s = s := by
  simp [implicitReset, h]

@[simp] theorem implicitReset_params (s : State) : (implicitReset s).params = s.params := by
  unfold implicitReset; split <;> rfl

@[simp] theorem implicitReset_ebuf (s : State) : (implicitReset s).ebuf = s.ebuf := by
  unfold implicitReset; split <;> rfl

@[simp] theorem implicitReset_escp (s : State) : (implicitReset s).escp = s.escp := by
  unfold implicitReset; split <;> rfl

@[simp] theorem implicitReset_input (s : State) : (implicitReset s).input = s.input := by
  unfold implicitReset; split <;> rfl

@[simp] theorem implicitReset_reply (s : State) : (implicitReset s).reply = s.reply := by
  unfold implicitReset; split <;> rfl

@[simp] theorem implicitReset_done (s : State) : (implicitReset s).done = false := by
  unfold implicitReset; split
  · rfl
  · rename_i h; simpa using h

theorem implicitReset_acc (s : State) : (implicitReset s).acc = if s.done then [] else s.acc := by
  unfold implicitReset; split <;> rfl

/-! ### The transitions -/

/-- Accumulating, a data byte: it is appended, or the accumulator is full and nothing changes (R86). -/
theorem onData_cases (b : Byte) (s : State) :
    (s.acc.length < s.params.decCap ∧ onData b s = finish (s.withAcc (s.acc ++ [b]))) ∨
    (s.params.decCap ≤ s.acc.length ∧ onData b s = raise .capacityExceeded s) := by
  unfold onData
  split
  · rename_i h
    obtain ⟨hlt, rfl⟩ := bufPush_eq_some.mp h
    exact .inl ⟨hlt, rfl⟩
  · rename_i h
    exact .inr ⟨bufPush_eq_none.mp h, rfl⟩

/-- EscapePending, a valid code: the byte it stands for is appended, or the accumulator is full (R88, R89, R91). -/
theorem onEscPair_cases (v : Byte) (s : State) :
    (s.acc.length < s.params.decCap ∧ onEscPair v s = finish ((s.withAcc (s.acc ++ [v])).withEscp false)) ∨
    (s.params.decCap ≤ s.acc.length ∧
      onEscPair v s =
        raise .capacityExceeded (s.withEscp (escpAfterOverflow s.params.escOvfPolicy s.escp))) := by
  unfold onEscPair
  split
  · rename_i h
    obtain ⟨hlt, rfl⟩ := bufPush_eq_some.mp h
    exact .inl ⟨hlt, rfl⟩
  · rename_i h
    exact .inr ⟨bufPush_eq_none.mp h, rfl⟩

/-- Everything an insert can answer: with r the state the implicit reset leaves, one of eight cases, each with its
condition and its whole next state (R82 to R91). -/
theorem insertByte_cases (b : Byte) (s : State) : ∃ r, r = implicitReset s ∧
    ((r.escp = false ∧ b = END ∧ insertByte b s = finish (r.withDone (doneAfterEnd r.acc r.done))) ∨
     (r.escp = false ∧ b = ESC ∧ insertByte b s = finish (r.withEscp true)) ∨
     (r.escp = false ∧ b ≠ END ∧ b ≠ ESC ∧ r.acc.length < r.params.decCap ∧
       insertByte b s = finish (r.withAcc (r.acc ++ [b]))) ∨
     (r.escp = false ∧ b ≠ END ∧ b ≠ ESC ∧ r.params.decCap ≤ r.acc.length ∧
       insertByte b s = raise .capacityExceeded r) ∨
     (r.escp = true ∧ b = ESC_END ∧ insertByte b s = onEscPair END r) ∨
     (r.escp = true ∧ b = ESC_ESC ∧ insertByte b s = onEscPair ESC r) ∨
     (r.escp = true ∧ b ≠ ESC_END ∧ b ≠ ESC_ESC ∧
       insertByte b s =
         raise .invalidEscapeSequence (r.withEscp (escpAfterFault r.params.escFaultPolicy r.escp)))) := by
  refine ⟨implicitReset s, rfl, ?_⟩
  have hi : insertByte b s = transition (classify (implicitReset s).escp b) b (implicitReset s) := rfl
  rcases classify_cases (implicitReset s).escp b with
    ⟨hc, he, hb⟩ | ⟨hc, he, hb⟩ | ⟨hc, he, h1, h2⟩ | ⟨hc, he, hb⟩ | ⟨hc, he, hb⟩ | ⟨hc, he, h1, h2⟩
  · exact .inl ⟨he, hb, by rw [hi, hc]; rfl⟩
  · exact .inr (.inl ⟨he, hb, by rw [hi, hc]; rfl⟩)
  · rcases onData_cases b (implicitReset s) with ⟨hl, h⟩ | ⟨hl, h⟩
    · exact .inr (.inr (.inl ⟨he, h1, h2, hl, by rw [hi, hc]; exact h⟩))
    · exact .inr (.inr (.inr (.inl ⟨he, h1, h2, hl, by rw [hi, hc]; exact h⟩)))
  · exact .inr (.inr (.inr (.inr (.inl ⟨he, hb, by rw [hi, hc]; rfl⟩))))
  · exact .inr (.inr (.inr (.inr (.inr (.inl ⟨he, hb, by rw [hi, hc]; rfl⟩)))))
  · exact .inr (.inr (.inr (.inr (.inr (.inr ⟨he, h1, h2, by rw [hi, hc]; rfl⟩)))))

/-! ### The caller's accesses -/

/-- Everything an access of the caller's can answer (R32 to R37). -/
theorem execAccess_cases (a : Access) (s : State) :
    (a = .len ∧ execAccess a s = answer (.size s.ebuf.length) s) ∨
    (a = .cap ∧ execAccess a s = answer (.size s.params.encCap) s) ∨
    (∃ i b, a = .get i ∧ s.ebuf[i]? = some b ∧ execAccess a s = answer (.byte b) s) ∨
    (∃ i, a = .get i ∧ s.ebuf.length ≤ i ∧ execAccess a s = .refused .bufGetOutOfRange) ∨
    (∃ b, a = .push b ∧ s.ebuf.length < s.params.encCap ∧
      execAccess a s = answer (.pushed true) (s.withEbuf (s.ebuf ++ [b]))) ∨
    (∃ b, a = .push b ∧ s.params.encCap ≤ s.ebuf.length ∧ execAccess a s = answer (.pushed false) s) ∨
    (∃ bs, a = .replace bs ∧ bs.length ≤ s.params.encCap ∧ execAccess a s = answer .replaced (s.withEbuf bs)) ∨
    (∃ bs, a = .replace bs ∧ s.params.encCap < bs.length ∧ execAccess a s = .refused .bufReplaceTooLong) := by
  cases a with
  | len => exact .inl ⟨rfl, rfl⟩
  | cap => exact .inr (.inl ⟨rfl, rfl⟩)
  | get i =>
    cases h : s.ebuf[i]? with
    | some b =>
      refine .inr (.inr (.inl ⟨i, b, rfl, h, ?_⟩))
      simp [execAccess, State.readByte, bufGet, h]
    | none =>
      refine .inr (.inr (.inr (.inl ⟨i, rfl, List.getElem?_eq_none_iff.mp h, ?_⟩)))
      simp [execAccess, State.readByte, bufGet, h]
  | push b =>
    cases h : bufPush s.params.encCap s.ebuf b with
    | some c =>
      obtain ⟨hlt, rfl⟩ := bufPush_eq_some.mp h
      exact .inr (.inr (.inr (.inr (.inl ⟨b, rfl, hlt, by simp [execAccess, h]⟩))))
    | none =>
      exact .inr (.inr (.inr (.inr (.inr (.inl ⟨b, rfl, bufPush_eq_none.mp h, by simp [execAccess, h]⟩)))))
  | replace bs =>
    cases h : bufReplace s.params.encCap bs with
    | some c =>
      obtain ⟨hle, rfl⟩ := bufReplace_eq_some.mp h
      exact .inr (.inr (.inr (.inr (.inr (.inr (.inl ⟨c, rfl, hle, by simp [execAccess, h]⟩))))))
    | none =>
      exact .inr (.inr (.inr (.inr (.inr (.inr (.inr ⟨bs, rfl, bufReplace_eq_none.mp h, by
        simp [execAccess, h]⟩))))))

end Sys2Proof.Machine
end

