-- ==== Sys2Proof/Laws/Step.lean ====
section
/-! SUPPORT. Everything a step can do: it is idle, runs an instruction, refuses a word, or performs an access. -/

namespace Sys2Proof.Machine

theorem step_cases (s : State) :
    (s.input = [] ∧ step s = .next s) ∨
    (∃ w rest i, s.input = .word w :: rest ∧ decode s.escp w = .ok i ∧ step s = exec i (s.withInput rest)) ∨
    (∃ w rest r, s.input = .word w :: rest ∧ decode s.escp w = .error r ∧ step s = .refused (refusalOf r)) ∨
    (∃ a rest, s.input = .access a :: rest ∧ step s = execAccess a (s.withInput rest)) := by
  cases hin : s.input with
  | nil => exact .inl ⟨rfl, by simp [step, hin, idle]⟩
  | cons i rest =>
    cases i with
    | word w =>
      cases hd : decode s.escp w with
      | ok i => exact .inr (.inl ⟨w, rest, i, rfl, hd, by simp [step, hin, issue, hd]⟩)
      | error r => exact .inr (.inr (.inl ⟨w, rest, r, rfl, hd, by simp [step, hin, issue, hd]⟩))
    | access a => exact .inr (.inr (.inr ⟨a, rest, rfl, by simp [step, hin, issue]⟩))

/-- What the meanings of the instructions share: a row that feeds a wire byte is the insert of that byte. -/
theorem exec_of_wireByte {i : Instr} {b : Byte} (h : wireByte i = some b) (s : State) : exec i s = insertByte b s := by
  cases i <;> simp [wireByte] at h <;> subst h <;> rfl

/-- A STUFF row answers the frame bytes of its payload byte. -/
theorem exec_of_payloadByte {i : Instr} {b : Byte} (h : payloadByte i = some b) (s : State) :
    exec i s = answer (.frameBytes (stuff b)) s := by
  cases i <;> simp [payloadByte] at h <;> subst h <;> rfl

end Sys2Proof.Machine
end

