-- ==== Sys2Proof/Tests/Slice0.lean ====
section
/-! SUPPORT. Tests: ill-formed terms are refused; words written out from the spec's tables decode; vectors of
spec/95_test_vectors.md, one step each; and for each statement with hypotheses a state and operands that meet them. -/

namespace Sys2Proof.Tests

open Sys2Proof.Machine

/-! ### Ill-formed terms -/

theorem test_wf_refuses_wireData_end : (Instr.wireData 0xC0#8).wf = false := by decide
theorem test_wf_refuses_wireData_esc : (Instr.wireData 0xDB#8).wf = false := by decide
theorem test_wf_refuses_wireBadEsc_escEnd : (Instr.wireBadEsc 0xDC#8).wf = false := by decide
theorem test_wf_refuses_wireBadEsc_escEsc : (Instr.wireBadEsc 0xDD#8).wf = false := by decide
theorem test_wf_refuses_stuffPlain_end : (Instr.stuffPlain 0xC0#8).wf = false := by decide
theorem test_wf_refuses_stuffPlain_esc : (Instr.stuffPlain 0xDB#8).wf = false := by decide
theorem test_wf_refuses_reserved :
    Instr.reserved5.wf = false ∧ Instr.reserved6.wf = false ∧ Instr.reserved7.wf = false := by decide
theorem test_wf_accepts_escape_codes_as_data :
    (Instr.wireData 0xDC#8).wf = true ∧ (Instr.stuffPlain 0xDD#8).wf = true := by decide
theorem test_params_wf_refuses_long_ebufInit :
    ¬ Params.wf { encCap := 1, decCap := 0, escFaultPolicy := .hold, escOvfPolicy := .hold, ebufInit := [1#8, 2#8] } := by
  decide

/-! ### Decoding, one word per constructor, from the encoding column of spec/opcode_table.json -/

theorem test_decode_encode : decode false (.cmd 0b00000000000#11) = .ok .encode := by rfl
theorem test_decode_decReset : decode true (.cmd 0b00111111111#11) = .ok .decReset := by rfl
theorem test_decode_decInsert : decode false (.cmd 0b01011011011#11) = .ok (.decInsert 0xDB#8) := by rfl
theorem test_decode_decIsCompleted : decode false (.cmd 0b01110100101#11) = .ok .decIsCompleted := by rfl
theorem test_decode_decGetBuffer : decode false (.cmd 0b10000000001#11) = .ok .decGetBuffer := by rfl
theorem test_decode_reserved5 : decode false (.cmd 0b10100000000#11) = .error .reserved5 := by rfl
theorem test_decode_reserved6 : decode false (.cmd 0b11010100101#11) = .error .reserved6 := by rfl
theorem test_decode_reserved7 : decode false (.cmd 0b11111111111#11) = .error .reserved7 := by rfl
theorem test_decode_wireEnd : decode false (.wire 0b11000000#8) = .ok .wireEnd := by rfl
theorem test_decode_wireEsc : decode false (.wire 0b11011011#8) = .ok .wireEsc := by rfl
theorem test_decode_wireData : decode false (.wire 0b11011100#8) = .ok (.wireData 0xDC#8) := by rfl
theorem test_decode_wireEscEnd : decode true (.wire 0b11011100#8) = .ok .wireEscEnd := by rfl
theorem test_decode_wireEscEsc : decode true (.wire 0b11011101#8) = .ok .wireEscEsc := by rfl
theorem test_decode_wireBadEsc : decode true (.wire 0b11000000#8) = .ok (.wireBadEsc 0xC0#8) := by rfl
theorem test_decode_stuffEnd : decode false (.payload 0b11000000#8) = .ok .stuffEnd := by rfl
theorem test_decode_stuffEsc : decode true (.payload 0b11011011#8) = .ok .stuffEsc := by rfl
theorem test_decode_stuffPlain : decode false (.payload 0b11011101#8) = .ok (.stuffPlain 0xDD#8) := by rfl

theorem test_tableWord_insert : decodeTableWord 16 0x2C0 = some (.decInsert 0xC0#8) := by rfl
theorem test_tableWord_reserved : decodeTableWord 16 0x500 = none := by rfl
theorem test_tableWord_above_command : decodeTableWord 16 0x800 = none := by rfl
theorem test_tableWord_wire :
    decodeTableWord 8 0xC0 = some .wireEnd ∧ decodeTableWord 8 0xDC = some .wireEscEnd := ⟨rfl, rfl⟩

/-! ### Small states -/

/-- An instance with the given capacities and the policies of this hardware. -/
def params (encCap decCap : Nat) : Params where
  encCap := encCap
  decCap := decCap
  escFaultPolicy := .hold
  escOvfPolicy := .hold
  ebufInit := []

/-- The same with the policies this hardware does not take. -/
def paramsDrop (encCap decCap : Nat) : Params where
  encCap := encCap
  decCap := decCap
  escFaultPolicy := .discard
  escOvfPolicy := .drop
  ebufInit := []

/-- A state with the given EBUF, nothing in the decoder. -/
def encState (encCap : Nat) (ebuf : Buffer) : State := (State.powerOn (params encCap 4)).withEbuf ebuf

/-- A state with the given decoder. -/
def decState (decCap : Nat) (acc : Buffer) (escp done : Bool) : State :=
  (((State.powerOn (params 8 decCap)).withAcc acc).withEscp escp).withDone done

/-- The same under the policies this hardware does not take. -/
def decStateDrop (decCap : Nat) (acc : Buffer) (escp done : Bool) : State :=
  (((State.powerOn (paramsDrop 8 decCap)).withAcc acc).withEscp escp).withDone done

/-- The next state of an answer, where there is one. -/
def nextOf (o : Result) : Option State :=
  match o with
  | .next t => some t
  | .fault _ => none
  | .refused _ => none

/-- The decoder and the result after an answer. -/
def decOf (o : Result) : Option (Buffer × Bool × Bool × Option Status) :=
  (nextOf o).map fun t => (t.acc, t.escp, t.done, replyStatus t.reply)

/-- EBUF and the result after an answer. -/
def encOf (o : Result) : Option (Buffer × Option Status) := (nextOf o).map fun t => (t.ebuf, replyStatus t.reply)

/-! ### Vectors of spec/95_test_vectors.md -/

/-- VE11. -/
theorem test_encode_mixed_exact_fit :
    encOf (exec .encode (encState 9 [0x01#8, 0xC0#8, 0x02#8, 0xDB#8, 0x03#8])) =
      some ([0xC0#8, 0x01#8, 0xDB#8, 0xDC#8, 0x02#8, 0xDB#8, 0xDD#8, 0x03#8, 0xC0#8], some .ok) := by decide

/-- VE8: one over. -/
theorem test_encode_one_over :
    encOf (exec .encode (encState 5 [0xC0#8, 0xDB#8])) =
      some ([0xC0#8, 0xDB#8], some (.error .capacityExceeded)) := by decide

/-- VD19. -/
theorem test_decReset_mid_packet :
    decOf (exec .decReset (decState 4 [0x01#8, 0x02#8] true false)) = some ([], false, false, some .ok) := by decide

/-- VD6, step 3: the byte that triggers the implicit reset is processed. -/
theorem test_decInsert_after_completion :
    decOf (exec (.decInsert 0x02#8) (decState 1 [0x01#8] false true)) = some ([0x02#8], false, false, some .ok) := by
  decide

/-- VD12, step 3. -/
theorem test_decInsert_pair_overflow_hold :
    decOf (exec (.decInsert 0xDC#8) (decState 1 [0x01#8] true false)) =
      some ([0x01#8], true, false, some (.error .capacityExceeded)) := by decide

/-- VD20. -/
theorem test_decIsCompleted_reports_done :
    (nextOf (exec .decIsCompleted (decState 4 [0x01#8] false true))).map (·.reply) =
      some (some (.op { status := .ok, flag := some true, view := none })) := by decide

/-- VD20, with an escape pending. -/
theorem test_decGetBuffer_shows_partial :
    (nextOf (exec .decGetBuffer (decState 4 [0x01#8] true false))).map (·.reply) =
      some (some (.op { status := .ok, flag := none, view := some [0x01#8] })) := by decide

/-- VD9, step 4: the closing END appends nothing to a full accumulator. -/
theorem test_wireEnd_completes_full :
    decOf (exec .wireEnd (decState 2 [0x01#8, 0x02#8] false false)) =
      some ([0x01#8, 0x02#8], false, true, some .ok) := by decide

/-- VD2: an END on an empty accumulator. -/
theorem test_wireEnd_empty : decOf (exec .wireEnd (decState 0 [] false false)) = some ([], false, false, some .ok) := by
  decide

/-- VD10, step 2. -/
theorem test_wireEsc_full : decOf (exec .wireEsc (decState 1 [0x01#8] false false)) =
    some ([0x01#8], true, false, some .ok) := by decide

/-- VD4, step 2, and VD8, step 3. -/
theorem test_wireData_escEnd_is_data : decOf (exec (.wireData 0xDC#8) (decState 2 [] false false)) =
    some ([0xDC#8], false, false, some .ok) := by decide
theorem test_wireData_overflow : decOf (exec (.wireData 0x03#8) (decState 2 [0x01#8, 0x02#8] false false)) =
    some ([0x01#8, 0x02#8], false, false, some (.error .capacityExceeded)) := by decide

/-- VS3, step 3, and VD13, step 3. -/
theorem test_wireEscEnd_appends_end : decOf (exec .wireEscEnd (decState 1 [] true false)) =
    some ([0xC0#8], false, false, some .ok) := by decide
theorem test_wireEscEnd_overflow_drop : decOf (exec .wireEscEnd (decStateDrop 1 [0x01#8] true false)) =
    some ([0x01#8], false, false, some (.error .capacityExceeded)) := by decide

/-- VS4, step 3. -/
theorem test_wireEscEsc_appends_esc : decOf (exec .wireEscEsc (decState 1 [] true false)) =
    some ([0xDB#8], false, false, some .ok) := by decide

/-- VD17, step 3, under both policies. -/
theorem test_wireBadEsc_end_hold : decOf (exec (.wireBadEsc 0xC0#8) (decState 4 [0x01#8] true false)) =
    some ([0x01#8], true, false, some (.error .invalidEscapeSequence)) := by decide
theorem test_wireBadEsc_end_discard : decOf (exec (.wireBadEsc 0xC0#8) (decStateDrop 4 [0x01#8] true false)) =
    some ([0x01#8], false, false, some (.error .invalidEscapeSequence)) := by decide

/-- R53. -/
theorem test_stuffEnd : (nextOf (exec .stuffEnd State.reset)).map (·.reply) =
    some (some (.frameBytes [0xDB#8, 0xDC#8])) := by decide
theorem test_stuffEsc : (nextOf (exec .stuffEsc State.reset)).map (·.reply) =
    some (some (.frameBytes [0xDB#8, 0xDD#8])) := by decide
theorem test_stuffPlain : (nextOf (exec (.stuffPlain 0xDC#8) State.reset)).map (·.reply) =
    some (some (.frameBytes [0xDC#8])) := by decide

/-- R60. -/
theorem test_reserved_refused : exec .reserved5 State.reset = .refused .reservedCode5 ∧
    exec .reserved6 State.reset = .refused .reservedCode6 ∧
    exec .reserved7 State.reset = .refused .reservedCode7 := ⟨rfl, rfl, rfl⟩

/-- P1, step 4, as the first step after reset. -/
theorem test_step_from_reset : decOf (step (State.reset.withFetchWord 16 0x201)) =
    some ([0x01#8], false, false, some .ok) := by decide
theorem test_step_wire_from_reset : decOf (step (State.reset.withFetchWord 8 0xDC)) =
    some ([0xC0#8], false, false, some .ok) := by decide
theorem test_step_reserved_refused : step (State.reset.withFetchWord 16 0x6A5) = .refused .reservedCode6 := rfl

/-- R34, R35: the caller's accesses at the edges of EBUF. -/
theorem test_access_get_out_of_range : execAccess (.get 1) (encState 2 [0x11#8]) = .refused .bufGetOutOfRange := rfl
theorem test_access_push_full : encOf (execAccess (.push 0x22#8) (encState 1 [0x11#8])) = some ([0x11#8], none) := by
  decide

/-- P6 and R63: DECODE of the frame of VE2. -/
theorem test_decodeStream_escaped_end :
    (nextOf (decodeStream [0xC0#8, 0xDB#8, 0xDC#8, 0xC0#8] (decState 1 [0x55#8] true false))).map
      (fun t => (t.acc, t.done)) = some ([0xC0#8], true) := by decide

/-! ### The hypotheses of the statements can be met -/

theorem witness_DecResetClearsDecoder : 0x1FF#11 &&& 0x700#11 = 0x100#11 ∧
    ∃ t u, exec .decReset (decState 4 [0x01#8] true false) = .next t ∧ exec .decReset t = .next u :=
  ⟨by decide, _, _, rfl, rfl⟩

theorem witness_EncodeCommitsFrameOrChangesNothing :
    0x0FF#11 &&& 0x700#11 = 0x000#11 ∧
    ((encState 5 [0xC0#8, 0xDB#8]).ebuf.length +
      (encState 5 [0xC0#8, 0xDB#8]).ebuf.countP (fun b => b = 0xC0#8 ∨ b = 0xDB#8) + 2 >
        (encState 5 [0xC0#8, 0xDB#8]).params.encCap) ∧
    ((encState 6 [0xC0#8, 0xDB#8]).ebuf.length +
      (encState 6 [0xC0#8, 0xDB#8]).ebuf.countP (fun b => b = 0xC0#8 ∨ b = 0xDB#8) + 2 ≤
        (encState 6 [0xC0#8, 0xDB#8]).params.encCap) := by decide

theorem witness_EncodedFrameIsDelimitedAndEscaped :
    frameLength (encState 6 [0xC0#8, 0xDB#8]).ebuf ≤ (encState 6 [0xC0#8, 0xDB#8]).params.encCap ∧
    ∃ t, exec .encode (encState 6 [0xC0#8, 0xDB#8]) = .next t ∧ t.readByte .ebuf 1 = some ESC ∧ 1 + 1 < t.ebuf.length :=
  ⟨by decide, _, rfl, by decide, by decide⟩

theorem witness_EncodeFailsWithoutRoomForDelimiters :
    (encState 4 [0xAA#8, 0xAA#8, 0xAA#8]).params.encCap ≤ (encState 4 [0xAA#8, 0xAA#8, 0xAA#8]).ebuf.length + 1 ∧
    ∃ t, exec .encode (encState 4 [0xAA#8, 0xAA#8, 0xAA#8]) = .next t := ⟨by decide, _, rfl⟩

theorem witness_StuffRowsAnswerFrameBytes : 0xDC#8 ≠ 0xC0#8 ∧ 0xDC#8 ≠ 0xDB#8 := by decide

theorem witness_DecInsertFollowsPseudocode : 0x2FF#11 &&& 0x700#11 = 0x200#11 ∧
    (decState 1 [0x01#8] true false).acc.length ≤ (decState 1 [0x01#8] true false).params.decCap := by decide

theorem witness_ImplicitResetPrecedesInsert :
    (decState 1 [0x01#8] false true).Inv ∧ (decState 1 [0x01#8] false true).done = true := by decide

theorem witness_InsertEndCompletesNonEmptyPacket :
    ((decState 1 [0x01#8] false false).escp = false ∧ (decState 1 [0x01#8] false false).done = false ∧
      1 ≤ (decState 1 [0x01#8] false false).acc.length) ∧
    ((decState 1 [] false false).escp = false ∧ (decState 1 [] false false).done = false ∧
      (decState 1 [] false false).acc.length = 0) := by decide

theorem witness_InsertEscSetsEscapePending :
    (decState 1 [0x01#8] false false).escp = false ∧ (decState 1 [0x01#8] false false).done = false := by decide

theorem witness_InsertDataAppendsOrOverflows :
    (0xDC#8 ≠ 0xC0#8 ∧ 0xDC#8 ≠ 0xDB#8) ∧
    ((decState 2 [0x01#8] false false).escp = false ∧ (decState 2 [0x01#8] false false).done = false ∧
      (decState 2 [0x01#8] false false).acc.length < (decState 2 [0x01#8] false false).params.decCap) ∧
    ((decState 0 [] false false).escp = false ∧ (decState 0 [] false false).done = false ∧
      (decState 0 [] false false).acc.length = (decState 0 [] false false).params.decCap) := by decide

theorem witness_InsertEscapeCodeAppendsOriginal :
    (decState 1 [] true false).escp = true ∧ (decState 1 [] true false).done = false ∧
    (decState 1 [] true false).acc.length < (decState 1 [] true false).params.decCap := by decide

theorem witness_InsertBadEscapeRaisesError :
    (0xC0#8 ≠ 0xDC#8 ∧ 0xC0#8 ≠ 0xDD#8) ∧
    ((decState 1 [] true false).escp = true ∧ (decState 1 [] true false).done = false ∧
      (decState 1 [] true false).params.escFaultPolicy = .hold) ∧
    ((decStateDrop 1 [] true false).escp = true ∧ (decStateDrop 1 [] true false).done = false ∧
      (decStateDrop 1 [] true false).params.escFaultPolicy = .discard) := by decide

theorem witness_InsertEscapeCodeOverflows :
    ((decState 1 [0x01#8] true false).escp = true ∧ (decState 1 [0x01#8] true false).done = false ∧
      (decState 1 [0x01#8] true false).acc.length = (decState 1 [0x01#8] true false).params.decCap ∧
      (decState 1 [0x01#8] true false).params.escOvfPolicy = .hold) ∧
    ((decStateDrop 1 [0x01#8] true false).escp = true ∧ (decStateDrop 1 [0x01#8] true false).done = false ∧
      (decStateDrop 1 [0x01#8] true false).acc.length = (decStateDrop 1 [0x01#8] true false).params.decCap ∧
      (decStateDrop 1 [0x01#8] true false).params.escOvfPolicy = .drop) := by decide

/-- Every clause of the statement about the WIRE rows: in each decoder state an accumulator with room and a full one, and
in state Accumulating an empty one. -/
theorem witness_WireRowsMakeTheirTransition :
    (∀ e : Bool, (decState 1 [0x01#8] e false).done = false ∧ (decState 1 [0x01#8] e false).escp = e ∧
      1 ≤ (decState 1 [0x01#8] e false).acc.length ∧
      (decState 1 [0x01#8] e false).acc.length = (decState 1 [0x01#8] e false).params.decCap) ∧
    (∀ e : Bool, (decState 1 [] e false).done = false ∧ (decState 1 [] e false).escp = e ∧
      (decState 1 [] e false).acc.length = 0 ∧
      (decState 1 [] e false).acc.length < (decState 1 [] e false).params.decCap) ∧
    (0xDC#8 ≠ 0xC0#8 ∧ 0xDC#8 ≠ 0xDB#8 ∧ 0xC0#8 ≠ 0xDC#8 ∧ 0xC0#8 ≠ 0xDD#8) := by decide

theorem witness_WireRowsAgreeWithDecInsert : wireByte (.wireBadEsc 0x41#8) = some 0x41#8 := by decide

theorem witness_IsCompletedReportsDoneFromEndToNextInsert : 0x3A5#11 &&& 0x700#11 = 0x300#11 ∧
    (decState 1 [0x01#8] false false).Inv ∧ ∃ t, exec .wireEnd (decState 1 [0x01#8] false false) = .next t ∧
      t.done = true := ⟨by decide, by decide, _, rfl, rfl⟩

theorem witness_GetBufferReturnsAccumulator : 0x4FF#11 &&& 0x700#11 = 0x400#11 := by decide

theorem witness_EscpIsSetByEscAndHiddenFromReads :
    ((decState 1 [] false false).Inv ∧ (decState 1 [] false false).escp = false ∧
      ∃ t, exec .wireEsc (decState 1 [] false false) = .next t) ∧
    ((decState 1 [] true false).Inv ∧ (decState 1 [] true false).escp = true ∧
      ∃ t, exec .wireEscEnd (decState 1 [] true false) = .next t) ∧
    (wireByte .decGetBuffer = none ∧ ∃ t, exec .decGetBuffer (decState 1 [] true false) = .next t) :=
  ⟨⟨by decide, rfl, _, rfl⟩, ⟨by decide, rfl, _, rfl⟩, rfl, _, rfl⟩

theorem witness_ErrorsAreRaisedExactlyAtTheirSites :
    (decState 1 [0x01#8] true false).Inv ∧
    (∃ t, exec .wireEscEnd (decState 1 [0x01#8] true false) = .next t ∧
      replyStatus t.reply = some (.error .capacityExceeded)) ∧
    (∃ t, exec (.wireBadEsc 0xC0#8) (decState 1 [0x01#8] true false) = .next t ∧
      replyStatus t.reply = some (.error .invalidEscapeSequence)) := ⟨by decide, ⟨_, rfl, rfl⟩, _, rfl, rfl⟩

theorem witness_StateAfterErrorIsPrecise :
    ((decStateDrop 1 [0x01#8] true false).Inv ∧
      ∃ t, exec .wireEscEnd (decStateDrop 1 [0x01#8] true false) = .next t ∧
        replyStatus t.reply = some (.error .capacityExceeded)) ∧
    ((encState 1 []).Inv ∧ ∃ t, exec .encode (encState 1 []) = .next t ∧
      replyStatus t.reply = some (.error .capacityExceeded)) :=
  ⟨⟨by decide, _, rfl, rfl⟩, by decide, _, rfl, rfl⟩

theorem witness_EveryWellFormedInstructionAnswers : Instr.encode.wf = true := by decide

theorem witness_ReservedCodesAreRefusedByName :
    0x500#11 &&& 0x700#11 = 0x500#11 ∧ 0x6A5#11 &&& 0x700#11 = 0x600#11 ∧ 0x7FF#11 &&& 0x700#11 = 0x700#11 ∧
    (State.reset.withInput [.word (.cmd 0x7FF#11)]).input = .word (.cmd 0x7FF#11) :: [] := by decide

theorem witness_UnitsShareNoState :
    (∃ t, exec .encode (encState 4 [0xC0#8]) = .next t) ∧ (encState 4 [0xC0#8]).SameEnc ((encState 4 [0xC0#8]).withDone true) ∧
    Instr.wireEnd.isDec = true ∧ (∃ t, exec .wireEnd (decState 1 [0x01#8] false false) = .next t) ∧
    (decState 1 [0x01#8] false false).SameDec ((decState 1 [0x01#8] false false).withEbuf [0x05#8]) :=
  ⟨⟨_, rfl⟩, by decide, rfl, ⟨_, rfl⟩, by decide⟩

theorem witness_InsertWritesOnlyTheNextCell : wireByte (.wireData 0x07#8) = some 0x07#8 ∧
    (decState 2 [0x01#8] false false).done = false ∧
    ∃ t, exec (.wireData 0x07#8) (decState 2 [0x01#8] false false) = .next t := ⟨rfl, rfl, _, rfl⟩

theorem witness_ReadsChangeNothing : ∃ t, exec .decGetBuffer (decState 2 [0x01#8] true false) = .next t := ⟨_, rfl⟩

theorem witness_EncodeCommutesWithDecoderOperations : Instr.decReset.isDec = true ∧
    ∃ t u, exec .encode (encState 4 [0xC0#8]) = .next t ∧ exec .decReset t = .next u := ⟨rfl, _, _, rfl, rfl⟩

theorem witness_StepKeepsParametersAndTakesOneInput : ∃ t, step (State.reset.withFetchWord 16 0x2DB) = .next t :=
  ⟨_, rfl⟩

theorem witness_DataFieldIsReadByDecInsertOnly :
    (0x1FF#11 &&& 0x700#11 = 0x100#11 &&& 0x700#11 ∧ 0x1FF#11 &&& 0x700#11 ≠ 0x200#11) ∧
    0x2FF#11 &&& 0x700#11 = 0x200#11 := by decide

theorem witness_DecodeOfEncodeIsTheInstruction :
    ((Instr.decInsert 0xFF#8).wf = true ∧ contextEscp (.decInsert 0xFF#8) = none) ∧
    ((Instr.wireBadEsc 0xC0#8).wf = true ∧ contextEscp (.wireBadEsc 0xC0#8) = some true) := by decide

theorem witness_EncodeOfDecodeIsTheWord : decode true (.cmd 0x1FF#11) = .ok .decReset := rfl

theorem witness_StepRunsTheDecodedInstruction :
    (State.reset.withInput [.word (.wire 0xC0#8)]).input = .word (.wire 0xC0#8) :: [] ∧
    decode (State.reset.withInput [.word (.wire 0xC0#8)]).escp (.wire 0xC0#8) = .ok .wireEnd ∧
    State.reset.input = [] := ⟨rfl, rfl, rfl⟩

theorem witness_PresentedTableWordRunsNext : decodeTableWord 8 0xDD = some .wireEscEsc := rfl

/-- Each access at the edge of its range: the last byte and one past it, a buffer with room for one and a full one, a
replace that just fits and one too long. -/
theorem witness_CallerAccessesReadAndWriteEbuf :
    0 < (encState 2 [0x11#8]).ebuf.length ∧ (encState 2 [0x11#8]).ebuf.length ≤ 1 ∧
    (encState 2 [0x11#8]).ebuf.length < (encState 2 [0x11#8]).params.encCap ∧
    (encState 1 [0x11#8]).ebuf.length = (encState 1 [0x11#8]).params.encCap ∧
    [0x01#8, 0x02#8].length ≤ (encState 2 []).params.encCap ∧
    (encState 1 []).params.encCap < [0x01#8, 0x02#8].length ∧
    (State.reset.withInput [.access (.get 0)]).input = .access (.get 0) :: [] := by decide

theorem witness_EveryStepKeepsInvariant : (State.reset.withFetchWord 16 0x2DB).Inv ∧
    ∃ t, step (State.reset.withFetchWord 16 0x2DB) = .next t := ⟨by decide, _, rfl⟩

theorem witness_PowerOnMeetsInvariant : (params 0 0).wf := by decide

theorem witness_InsertingStuffedPayloadAppendsIt :
    (decState 2 [0x01#8] false false).escp = false ∧ (decState 2 [0x01#8] false false).done = false ∧
    (decState 2 [0x01#8] false false).acc.length + [0xC0#8].length ≤ (decState 2 [0x01#8] false false).params.decCap ∧
    [0xC0#8] ≠ [] := by decide

theorem witness_PacketsFollowWithoutResidue :
    (decState 1 [] false false).acc = [] ∧ (decState 1 [] false false).escp = false ∧
    (decState 1 [] false false).done = false ∧ [0xDB#8] ≠ [] ∧
    [0xDB#8].length ≤ (decState 1 [] false false).params.decCap := by decide

theorem witness_FrameTooLongForDecoderOverflows :
    (decState 1 [] false false).acc = [] ∧ (decState 1 [] false false).escp = false ∧
    (decState 1 [] false false).done = false ∧
    (decState 1 [] false false).params.decCap < [0x01#8, 0xC0#8].length := by decide

/-- VX2's capacities for ENC_CAP, VX1's for DEC_CAP, at the limit. -/
theorem witness_DecodingAnEncodedPayloadGivesItBack :
    frameLength (encState 8 [0xC0#8, 0xC0#8, 0xC0#8]).ebuf ≤ (encState 8 [0xC0#8, 0xC0#8, 0xC0#8]).params.encCap ∧
    (encState 8 [0xC0#8, 0xC0#8, 0xC0#8]).ebuf.length ≤ (encState 8 [0xC0#8, 0xC0#8, 0xC0#8]).params.decCap := by decide

theorem test_reset_meets_invariant : State.reset.Inv := by decide

end Sys2Proof.Tests
end

section
/-! The two units of the block (spec/00_scope.md R2): the length of a frame and what ENCODE can answer, what it means for
an operation to be confined to one unit, which operations are, and the two statements about it. -/

namespace Sys2Proof.Machine

/-! ### The length of a frame and the answers of ENCODE -/

/-- Stuffing adds one byte for each special one. -/
theorem stuffAll_length (P : List Byte) : (stuffAll P).length = P.length + countSpecial P := by
  induction P with
  | nil => rfl
  | cons b P ih =>
    rw [stuffAll, countSpecial, List.length_append, ih, List.length_cons]
    rcases stuff_cases b with ⟨-, hs, hb⟩ | ⟨-, hs, hb⟩ | ⟨-, -, hs, hb⟩ <;> simp [hs, hb] <;> omega

/-- The length ENCODE tests is the length of the frame it writes (R52, R70). -/
theorem frame_length (P : List Byte) : (frame P).length = frameLength P := by
  simp [frame, frameLength, stuffAll_length]

/-- R71: a frame too long is an error. -/
theorem execEncode_of_lt {s : State} (h : s.params.encCap < frameLength s.ebuf) :
    execEncode s = raise .capacityExceeded s := if_pos h

/-- R72: a frame that fits replaces EBUF, a replace that is never refused. -/
theorem execEncode_of_le {s : State} (h : frameLength s.ebuf ≤ s.params.encCap) :
    execEncode s = finish (s.withEbuf (frame s.ebuf)) := by
  have hfit : bufReplace s.params.encCap (frame s.ebuf) = some (frame s.ebuf) :=
    bufReplace_eq_some.mpr ⟨(frame_length s.ebuf).trans_le h, rfl⟩
  simp [execEncode, Nat.not_lt.mpr h, hfit]

/-! ### Operations confined to one unit -/

/-- Overwrites the three items of the decoder unit (R11). -/
def State.withDec (s : State) (acc : Buffer) (escp done : Bool) : State :=
  ((s.withAcc acc).withEscp escp).withDone done

/-- An operation confined to the encoder unit: at every content of the unit there is one new EBUF and one reply, which
it gives from every state with that content, changing nothing else. -/
def EncLocal (f : State → Result) : Prop :=
  ∀ s : State, ∃ ebuf r, ∀ s' : State, s.SameEnc s' → f s' = .next ((s'.withEbuf ebuf).withReply (some r))

/-- An operation confined to the decoder unit: at every content of the unit there is one new content and one reply,
which it gives from every state with that content, changing nothing else. -/
def DecLocal (f : State → Result) : Prop :=
  ∀ s : State, ∃ acc escp done r, ∀ s' : State, s.SameDec s' →
    f s' = .next ((s'.withDec acc escp done).withReply (some r))

theorem EncLocal.of_next {f : State → Result} (hf : EncLocal f) {s t : State} (hst : f s = .next t) :
    ∃ ebuf r, t = (s.withEbuf ebuf).withReply (some r) ∧
      ∀ s' : State, s.SameEnc s' → f s' = .next ((s'.withEbuf ebuf).withReply (some r)) := by
  obtain ⟨ebuf, r, h⟩ := hf s
  have hs := h s ⟨rfl, rfl⟩
  exact ⟨ebuf, r, Host.Outcome.next.inj (hst.symm.trans hs), h⟩

theorem DecLocal.of_next {g : State → Result} (hg : DecLocal g) {s t : State} (hst : g s = .next t) :
    ∃ acc escp done r, t = (s.withDec acc escp done).withReply (some r) ∧
      ∀ s' : State, s.SameDec s' → g s' = .next ((s'.withDec acc escp done).withReply (some r)) := by
  obtain ⟨acc, escp, done, r, h⟩ := hg s
  have hs := h s ⟨rfl, rfl, rfl, rfl⟩
  exact ⟨acc, escp, done, r, Host.Outcome.next.inj (hst.symm.trans hs), h⟩

/-- Operations confined to different units commute, and each gives the same reply in either order. -/
theorem EncLocal.commutes {f g : State → Result} (hf : EncLocal f) (hg : DecLocal g) {s t u : State}
    (hst : f s = .next t) (htu : g t = .next u) :
    ∃ t' u', g s = .next t' ∧ f t' = .next u' ∧ u.SameArch u' ∧ t'.reply = u.reply ∧ u'.reply = t.reply := by
  obtain ⟨ebuf, re, rfl, hf⟩ := hf.of_next hst
  obtain ⟨acc, escp, done, rd, rfl, hg⟩ := hg.of_next htu
  exact ⟨_, _, hg s ⟨rfl, rfl, rfl, rfl⟩, hf _ ⟨rfl, rfl⟩, ⟨rfl, rfl, rfl, rfl, rfl⟩, rfl, rfl⟩

/-! ### ENCODE is confined to the encoder unit -/

theorem execEncode_encLocal : EncLocal execEncode := by
  intro s
  rcases Nat.lt_or_ge s.params.encCap (frameLength s.ebuf) with h | h
  · refine ⟨s.ebuf, .op (errorResponse .capacityExceeded), fun s' ⟨hp, hb⟩ => ?_⟩
    rw [hp, hb] at h
    rw [execEncode_of_lt h, hb]
    rfl
  · refine ⟨frame s.ebuf, .op okResponse, fun s' ⟨hp, hb⟩ => ?_⟩
    rw [hp, hb] at h
    rw [execEncode_of_le h, hb]
    rfl

/-! ### The decoder's operations are confined to the decoder unit -/

theorem onEnd_decLocal : DecLocal onEnd := by
  refine fun s => ⟨s.acc, s.escp, doneAfterEnd s.acc s.done, .op okResponse, fun s' ⟨_, ha, he, hd⟩ => ?_⟩
  rw [ha, he, hd]
  rfl

theorem onEsc_decLocal : DecLocal onEsc := by
  refine fun s => ⟨s.acc, true, s.done, .op okResponse, fun s' ⟨_, ha, _, hd⟩ => ?_⟩
  rw [ha, hd]
  rfl

theorem onData_decLocal (b : Byte) : DecLocal (onData b) := by
  intro s
  cases hpush : bufPush s.params.decCap s.acc b with
  | some a =>
    refine ⟨a, s.escp, s.done, .op okResponse, fun s' ⟨hp, ha, he, hd⟩ => ?_⟩
    rw [hp, ha] at hpush
    rw [onData, hpush, he, hd]
    rfl
  | none =>
    refine ⟨s.acc, s.escp, s.done, .op (errorResponse .capacityExceeded), fun s' ⟨hp, ha, he, hd⟩ => ?_⟩
    rw [hp, ha] at hpush
    rw [onData, hpush, ha, he, hd]
    rfl

theorem onEscPair_decLocal (v : Byte) : DecLocal (onEscPair v) := by
  intro s
  cases hpush : bufPush s.params.decCap s.acc v with
  | some a =>
    refine ⟨a, false, s.done, .op okResponse, fun s' ⟨hp, ha, _, hd⟩ => ?_⟩
    rw [hp, ha] at hpush
    rw [onEscPair, hpush, hd]
    rfl
  | none =>
    refine ⟨s.acc, escpAfterOverflow s.params.escOvfPolicy s.escp, s.done, .op (errorResponse .capacityExceeded),
      fun s' ⟨hp, ha, he, hd⟩ => ?_⟩
    rw [hp, ha] at hpush
    rw [onEscPair, hpush, hp, ha, he, hd]
    rfl

theorem onBadEsc_decLocal : DecLocal onBadEsc := by
  refine fun s => ⟨s.acc, escpAfterFault s.params.escFaultPolicy s.escp, s.done,
    .op (errorResponse .invalidEscapeSequence), fun s' ⟨hp, ha, he, hd⟩ => ?_⟩
  rw [hp, ha, he, hd]
  rfl

theorem transition_decLocal (c : WireClass) (b : Byte) : DecLocal (transition c b) := by
  cases c with
  | endByte => exact onEnd_decLocal
  | escByte => exact onEsc_decLocal
  | data => exact onData_decLocal b
  | escEnd => exact onEscPair_decLocal END
  | escEsc => exact onEscPair_decLocal ESC
  | badEsc => exact onBadEsc_decLocal

theorem sameDec_implicitReset {s s' : State} (h : s.SameDec s') :
    (implicitReset s).SameDec (implicitReset s') := by
  obtain ⟨hp, ha, he, hd⟩ := h
  exact ⟨by simp [hp], by simp [implicitReset_acc, ha, hd], by simp [he], by simp⟩

/-- The implicit reset touches only what the decoder unit holds. -/
theorem withDec_implicitReset (s : State) (acc : Buffer) (escp done : Bool) :
    (implicitReset s).withDec acc escp done = s.withDec acc escp done := by
  unfold implicitReset
  split <;> rfl

theorem insertByte_decLocal (b : Byte) : DecLocal (insertByte b) := by
  intro s
  obtain ⟨acc, escp, done, r, h⟩ :=
    transition_decLocal (classify (implicitReset s).escp b) b (implicitReset s)
  refine ⟨acc, escp, done, r, fun s' hs => ?_⟩
  obtain ⟨-, -, he, -⟩ := (sameDec_implicitReset hs)
  rw [insertByte, ← he, h _ (sameDec_implicitReset hs), withDec_implicitReset]

theorem execDecReset_decLocal : DecLocal execDecReset :=
  fun _ => ⟨[], false, false, .op okResponse, fun _ _ => rfl⟩

theorem execDecIsCompleted_decLocal : DecLocal execDecIsCompleted := by
  refine fun s => ⟨s.acc, s.escp, s.done, .op { status := .ok, flag := some s.done, view := none },
    fun s' ⟨_, ha, he, hd⟩ => ?_⟩
  rw [ha, he, hd]
  rfl

theorem execDecGetBuffer_decLocal : DecLocal execDecGetBuffer := by
  refine fun s => ⟨s.acc, s.escp, s.done, .op { status := .ok, flag := none, view := some s.acc },
    fun s' ⟨_, ha, he, hd⟩ => ?_⟩
  rw [ha, he, hd]
  rfl

/-- An operation of the decoder is the reset, one of the two reads, or an insert (R58, R55). -/
theorem isDec_cases {i : Instr} (h : i.isDec = true) :
    i = .decReset ∨ i = .decIsCompleted ∨ i = .decGetBuffer ∨ ∃ b, wireByte i = some b := by
  cases i <;> simp [Instr.isDec, wireByte] at h ⊢

theorem exec_decLocal {i : Instr} (h : i.isDec = true) : DecLocal (exec i) := by
  rcases isDec_cases h with rfl | rfl | rfl | ⟨b, hb⟩
  · exact execDecReset_decLocal
  · exact execDecIsCompleted_decLocal
  · exact execDecGetBuffer_decLocal
  · rw [funext (exec_of_wireByte hb)]
    exact insertByte_decLocal b

/-! ### The statements -/

/-- Settles O27: ENCODE is confined to the encoder unit and an operation of the decoder to the decoder unit. -/
theorem unitsShareNoState : Obligations.UnitsShareNoState := by
  unfold Obligations.UnitsShareNoState
  refine ⟨fun s t hst => ?_, fun s s' t hs hst => ?_, fun i s t hi hst => ?_, fun i s s' t hi hs hst => ?_⟩
  · obtain ⟨ebuf, r, rfl, h⟩ := execEncode_encLocal.of_next hst
    exact ⟨rfl, rfl, rfl, rfl, rfl, fun _ => rfl⟩
  · obtain ⟨ebuf, r, rfl, h⟩ := execEncode_encLocal.of_next hst
    exact ⟨_, h s' hs, ⟨hs.1, rfl⟩, rfl⟩
  · obtain ⟨acc, escp, done, r, rfl, h⟩ := (exec_decLocal hi).of_next hst
    exact ⟨rfl, rfl, rfl, fun _ => rfl⟩
  · obtain ⟨acc, escp, done, r, rfl, h⟩ := (exec_decLocal hi).of_next hst
    exact ⟨_, h s' hs, ⟨hs.1, rfl, rfl, rfl⟩, rfl⟩

/-- Settles O30: operations confined to different units commute. -/
theorem encodeCommutesWithDecoderOperations : Obligations.EncodeCommutesWithDecoderOperations := by
  unfold Obligations.EncodeCommutesWithDecoderOperations
  exact fun i s t u hi hst htu => execEncode_encLocal.commutes (exec_decLocal hi) hst htu

end Sys2Proof.Machine
end

section
/-! The state (spec/10_state.md): what a next state can be after an insert, an instruction, an access or a step, and
the statements about initial values, the invariant, and the lifetimes of DONE and ESCP. -/

namespace Sys2Proof.Machine

/-! ### What an insert leaves behind -/

/-- Where consuming byte b can lead from r, the state the implicit reset leaves: a constructor for each transition, and
one for each transition that finds ACC full (R84 to R91). -/
inductive Consumes (b : Byte) (r : State) : State → Prop where
  | endByte : r.escp = false → b = END →
      Consumes b r ((r.withDone (doneAfterEnd r.acc r.done)).withReply (some (.op okResponse)))
  | escByte : r.escp = false → b = ESC →
      Consumes b r ((r.withEscp true).withReply (some (.op okResponse)))
  | data : r.escp = false → b ≠ END → b ≠ ESC → r.acc.length < r.params.decCap →
      Consumes b r ((r.withAcc (r.acc ++ [b])).withReply (some (.op okResponse)))
  | dataFull : r.escp = false → b ≠ END → b ≠ ESC → r.params.decCap ≤ r.acc.length →
      Consumes b r (r.withReply (some (.op (errorResponse .capacityExceeded))))
  | pair (v : Byte) : r.escp = true → (b = ESC_END ∨ b = ESC_ESC) → r.acc.length < r.params.decCap →
      Consumes b r (((r.withAcc (r.acc ++ [v])).withEscp false).withReply (some (.op okResponse)))
  | pairFull : r.escp = true → (b = ESC_END ∨ b = ESC_ESC) → r.params.decCap ≤ r.acc.length →
      Consumes b r ((r.withEscp (escpAfterOverflow r.params.escOvfPolicy r.escp)).withReply
        (some (.op (errorResponse .capacityExceeded))))
  | badEsc : r.escp = true → b ≠ ESC_END → b ≠ ESC_ESC →
      Consumes b r ((r.withEscp (escpAfterFault r.params.escFaultPolicy r.escp)).withReply
        (some (.op (errorResponse .invalidEscapeSequence))))

theorem consumes_of_onData {b : Byte} {r t : State} (he : r.escp = false) (h1 : b ≠ END) (h2 : b ≠ ESC)
    (h : onData b r = .next t) : Consumes b r t := by
  rcases onData_cases b r with ⟨hl, ho⟩ | ⟨hl, ho⟩ <;> rw [ho] at h <;> cases h
  · exact .data he h1 h2 hl
  · exact .dataFull he h1 h2 hl

theorem consumes_of_onEscPair {b v : Byte} {r t : State} (he : r.escp = true) (hb : b = ESC_END ∨ b = ESC_ESC)
    (h : onEscPair v r = .next t) : Consumes b r t := by
  rcases onEscPair_cases v r with ⟨hl, ho⟩ | ⟨hl, ho⟩ <;> rw [ho] at h <;> cases h
  · exact .pair v he hb hl
  · exact .pairFull he hb hl

theorem consumes_of_insertByte {b : Byte} {s t : State} (h : insertByte b s = .next t) :
    Consumes b (implicitReset s) t := by
  unfold insertByte at h
  rcases classify_cases (implicitReset s).escp b with
    ⟨hc, he, hb⟩ | ⟨hc, he, hb⟩ | ⟨hc, he, h1, h2⟩ | ⟨hc, he, hb⟩ | ⟨hc, he, hb⟩ | ⟨hc, he, h1, h2⟩ <;> rw [hc] at h
  · cases h; exact .endByte he hb
  · cases h; exact .escByte he hb
  · exact consumes_of_onData he h1 h2 h
  · exact consumes_of_onEscPair he (.inl hb) h
  · exact consumes_of_onEscPair he (.inr hb) h
  · cases h; exact .badEsc he h1 h2

theorem insertByte_frame {b : Byte} {s t : State} (h : insertByte b s = .next t) :
    t.params = s.params ∧ t.input = s.input ∧ t.ebuf = s.ebuf := by
  obtain ⟨acc, escp, done, r, rfl, -⟩ := (insertByte_decLocal b).of_next h
  exact ⟨rfl, rfl, rfl⟩

theorem one_le_implicitReset_acc {s : State} :
    1 ≤ (implicitReset s).acc.length ↔ s.done = false ∧ 1 ≤ s.acc.length := by
  cases hd : s.done <;> simp [implicitReset_acc, hd]

theorem doneAfterEnd_eq_true_iff {acc : Buffer} : doneAfterEnd acc false = true ↔ 1 ≤ acc.length := by
  simp [doneAfterEnd]

/-- R16, R84: END in state Accumulating on a non-empty packet is the one insert after which DONE is true. -/
theorem insertByte_done {b : Byte} {s t : State} (h : insertByte b s = .next t) :
    t.done = true ↔ b = END ∧ s.escp = false ∧ s.done = false ∧ 1 ≤ s.acc.length := by
  rw [← one_le_implicitReset_acc]
  cases consumes_of_insertByte h with
  | endByte he hb =>
    rw [implicitReset_escp] at he
    simp [he, hb, doneAfterEnd_eq_true_iff]
  | escByte he hb => simp [hb, constants_distinct.1]
  | data he h1 h2 hl => simp [h1]
  | dataFull he h1 h2 hl => simp [h1]
  | pair v he | pairFull he | badEsc he =>
    rw [implicitReset_escp] at he
    simp [he]

/-- An insert appends at most one byte, and only below the capacity. -/
theorem insertByte_acc {b : Byte} {s t : State} (h : insertByte b s = .next t) :
    t.acc = (implicitReset s).acc ∨
    (implicitReset s).acc.length < s.params.decCap ∧ ∃ v, t.acc = (implicitReset s).acc ++ [v] := by
  cases consumes_of_insertByte h with
  | endByte => exact .inl rfl
  | escByte => exact .inl rfl
  | data he h1 h2 hl => exact .inr ⟨by simpa using hl, b, rfl⟩
  | dataFull => exact .inl rfl
  | pair v he hb hl => exact .inr ⟨by simpa using hl, v, rfl⟩
  | pairFull => exact .inl rfl
  | badEsc => exact .inl rfl

/-- R15: ESC is the one byte that sets ESCP. -/
theorem insertByte_sets_escp {b : Byte} {s t : State} (h : insertByte b s = .next t) (hs : s.escp = false) :
    t.escp = true ↔ b = ESC := by
  cases consumes_of_insertByte h with
  | endByte he hb => simp [hs, hb, constants_distinct.1.symm]
  | escByte he hb => simp [hb]
  | data he h1 h2 hl => simp [hs, h2]
  | dataFull he h1 h2 hl => simp [hs, h2]
  | pair v he | pairFull he | badEsc he => simp [hs] at he

theorem escpAfterOverflow_eq_false_iff {p : EscOvfPolicy} : escpAfterOverflow p true = false ↔ p = .drop := by
  cases p <;> simp [escpAfterOverflow]

theorem escpAfterFault_eq_false_iff {p : EscFaultPolicy} : escpAfterFault p true = false ↔ p = .discard := by
  cases p <;> simp [escpAfterFault]

/-- R15, R88 to R91: the inserts that clear ESCP. -/
theorem insertByte_clears_escp {b : Byte} {s t : State} (h : insertByte b s = .next t) (hs : s.escp = true) :
    t.escp = false ↔
      ((b = ESC_END ∨ b = ESC_ESC) ∧
        ((implicitReset s).acc.length < s.params.decCap ∨ s.params.escOvfPolicy = .drop)) ∨
      (¬(b = ESC_END ∨ b = ESC_ESC) ∧ s.params.escFaultPolicy = .discard) := by
  cases consumes_of_insertByte h with
  | endByte he | escByte he | data he | dataFull he => simp [hs] at he
  | pair v he hb hl =>
    rw [implicitReset_params] at hl
    simp [hb, hl]
  | pairFull he hb hl =>
    rw [implicitReset_params] at hl
    simp [hs, hb, hl.not_gt, escpAfterOverflow_eq_false_iff]
  | badEsc he h1 h2 => simp [hs, h1, h2, escpAfterFault_eq_false_iff]

/-! ### What an instruction, an access and a step leave behind -/

theorem wf_snoc {cap : Nat} {b : Buffer} (v : Byte) (h : b.length < cap) : Memory.wf cap (b ++ [v]) = true :=
  wf_bufPush (bufPush_eq_some.mpr ⟨h, rfl⟩)

/-- From s to t only EBUF and the reply may change, EBUF only to content within its capacity. -/
def LeavesDecoder (s t : State) : Prop :=
  ∃ e r, (e = s.ebuf ∨ Memory.wf s.params.encCap e = true) ∧ t = (s.withEbuf e).withReply (some r)

theorem leavesDecoder_withReply (s : State) (r : Reply) : LeavesDecoder s (s.withReply (some r)) :=
  ⟨s.ebuf, r, .inl rfl, rfl⟩

theorem execEncode_leavesDecoder {s t : State} (h : execEncode s = .next t) : LeavesDecoder s t := by
  rcases Nat.lt_or_ge s.params.encCap (frameLength s.ebuf) with hl | hl
  · rw [execEncode_of_lt hl] at h
    cases h
    exact leavesDecoder_withReply s _
  · rw [execEncode_of_le hl] at h
    cases h
    exact ⟨_, _, .inr (decide_eq_true ((frame_length s.ebuf).trans_le hl)), rfl⟩

theorem execAccess_leavesDecoder {a : Access} {s t : State} (h : execAccess a s = .next t) : LeavesDecoder s t := by
  rcases execAccess_cases a s with ⟨-, ho⟩ | ⟨-, ho⟩ | ⟨i, b, -, -, ho⟩ | ⟨i, -, -, ho⟩ | ⟨b, -, hl, ho⟩ |
    ⟨b, -, -, ho⟩ | ⟨bs, -, hl, ho⟩ | ⟨bs, -, -, ho⟩ <;> rw [ho] at h <;> cases h
  · exact leavesDecoder_withReply s _
  · exact leavesDecoder_withReply s _
  · exact leavesDecoder_withReply s _
  · exact ⟨_, _, .inr (wf_snoc b hl), rfl⟩
  · exact leavesDecoder_withReply s _
  · exact ⟨_, _, .inr (decide_eq_true hl), rfl⟩

/-- An instruction that answers inserts a byte, resets the decoder, or leaves the decoder unit alone. -/
theorem exec_next_cases {i : Instr} {s t : State} (h : exec i s = .next t) :
    (∃ b, wireByte i = some b ∧ insertByte b s = .next t) ∨
    (i = .decReset ∧ t = (clearDecoder s).withReply (some (.op okResponse))) ∨
    (wireByte i = none ∧ i ≠ .decReset ∧ LeavesDecoder s t) := by
  cases hw : wireByte i with
  | some b => exact .inl ⟨b, rfl, (exec_of_wireByte hw s).symm.trans h⟩
  | none =>
    cases i with
    | decInsert | wireEnd | wireEsc | wireData | wireEscEnd | wireEscEsc | wireBadEsc => cases hw
    | reserved5 | reserved6 | reserved7 => cases h
    | decReset => cases h; exact .inr (.inl ⟨rfl, rfl⟩)
    | encode => exact .inr (.inr ⟨rfl, nofun, execEncode_leavesDecoder h⟩)
    | decIsCompleted | decGetBuffer | stuffEnd | stuffEsc | stuffPlain =>
      cases h
      exact .inr (.inr ⟨rfl, nofun, leavesDecoder_withReply s _⟩)

theorem exec_frame {i : Instr} {s t : State} (h : exec i s = .next t) : t.params = s.params ∧ t.input = s.input := by
  rcases exec_next_cases h with ⟨b, -, hb⟩ | ⟨-, rfl⟩ | ⟨-, -, e, r, -, rfl⟩
  · obtain ⟨hp, hi, -⟩ := insertByte_frame hb
    exact ⟨hp, hi⟩
  · exact ⟨rfl, rfl⟩
  · exact ⟨rfl, rfl⟩

/-- A step that answers is idle, or takes one input and runs an instruction or an access. -/
theorem step_next_cases {s t : State} (h : step s = .next t) :
    (s.input = [] ∧ t = s) ∨
    (∃ i, exec i (s.withInput s.input.tail) = .next t) ∨
    LeavesDecoder (s.withInput s.input.tail) t := by
  rcases step_cases s with ⟨hin, ho⟩ | ⟨w, rest, i, hin, -, ho⟩ | ⟨w, rest, r, -, -, ho⟩ | ⟨a, rest, hin, ho⟩ <;>
    rw [ho] at h
  · exact .inl ⟨hin, (Host.Outcome.next.inj h).symm⟩
  · exact .inr (.inl ⟨i, by rwa [hin]⟩)
  · cases h
  · exact .inr (.inr (execAccess_leavesDecoder (by rwa [hin])))

/-! ### The invariant -/

theorem wf_implicitReset {s : State} (h : Memory.wf s.params.decCap s.acc = true) :
    Memory.wf s.params.decCap (implicitReset s).acc = true := by
  rw [implicitReset_acc]
  split
  · exact wf_nil _
  · exact h

/-- An insert keeps ACC within its capacity, and after END, which alone completes a packet, no escape is pending. -/
theorem insertByte_keeps_inv {b : Byte} {s t : State} (hs : s.Inv) (h : insertByte b s = .next t) : t.Inv := by
  obtain ⟨hebuf, hacc, -, -⟩ := hs
  obtain ⟨hp, -, he⟩ := insertByte_frame h
  refine ⟨by rwa [hp, he], ?_, fun hd => ?_, fun hd => ?_⟩
  · rw [hp]
    rcases insertByte_acc h with ha | ⟨hl, v, ha⟩ <;> rw [ha]
    · exact wf_implicitReset hacc
    · exact wf_snoc v hl
  · obtain ⟨hb, hesc, -⟩ := (insertByte_done h).mp hd
    simpa [hb, constants_distinct.1.symm] using insertByte_sets_escp h hesc
  · obtain ⟨-, -, hlen⟩ := (insertByte_done h).mp hd
    have hlen := one_le_implicitReset_acc.mpr hlen
    rcases insertByte_acc h with ha | ⟨-, v, ha⟩ <;> rw [ha]
    · exact hlen
    · simp

theorem clearDecoder_keeps_inv {s : State} (hs : s.Inv) : (clearDecoder s).Inv := by
  obtain ⟨hebuf, -⟩ := hs
  exact ⟨hebuf, wf_nil _, nofun, nofun⟩

theorem LeavesDecoder.keeps_inv {s t : State} (hs : s.Inv) (h : LeavesDecoder s t) : t.Inv := by
  obtain ⟨hebuf, hdec⟩ := hs
  obtain ⟨e, r, rfl | he, rfl⟩ := h
  · exact ⟨hebuf, hdec⟩
  · exact ⟨he, hdec⟩

theorem exec_keeps_inv {i : Instr} {s t : State} (hs : s.Inv) (h : exec i s = .next t) : t.Inv := by
  rcases exec_next_cases h with ⟨b, -, hb⟩ | ⟨-, rfl⟩ | ⟨-, -, hl⟩
  · exact insertByte_keeps_inv hs hb
  · exact clearDecoder_keeps_inv (s := s) hs
  · exact hl.keeps_inv hs

/-- Settles O39: an input is an insert, a reset, or leaves the decoder alone, and each of these keeps the invariant. -/
theorem everyStepKeepsInvariant : Obligations.EveryStepKeepsInvariant := by
  unfold Obligations.EveryStepKeepsInvariant
  intro s t hs hst
  have hs' : (s.withInput s.input.tail).Inv := hs
  rcases step_next_cases hst with ⟨-, rfl⟩ | ⟨i, hi⟩ | hl
  · exact hs
  · exact exec_keeps_inv hs' hi
  · exact hl.keeps_inv hs'

/-- Settles O40: at power-on ACC is empty, DONE is false and EBUF holds EBUF_INIT, which fits. -/
theorem powerOnMeetsInvariant : Obligations.PowerOnMeetsInvariant := by
  unfold Obligations.PowerOnMeetsInvariant
  have hinit : ∀ p : Params, p.wf → (State.powerOn p).Inv := fun p hp =>
    ⟨decide_eq_true hp, wf_nil _, nofun, nofun⟩
  exact ⟨hinit, hinit resetParams (Nat.zero_le _)⟩

/-! ### Initial values and what a step keeps -/

/-- Settles O1: the initial values are the fields of powerOn and of clearDecoder. -/
theorem powerOnAndResetGiveInitialValues : Obligations.PowerOnAndResetGiveInitialValues := by
  unfold Obligations.PowerOnAndResetGiveInitialValues
  exact ⟨fun p => ⟨rfl, rfl, rfl, rfl⟩, ⟨resetParams, Nat.zero_le _, rfl⟩, fun s => ⟨_, rfl, rfl, rfl, rfl⟩⟩

/-- Settles O31: neither an instruction nor an access touches the parameters or the inputs that are left. -/
theorem stepKeepsParametersAndTakesOneInput : Obligations.StepKeepsParametersAndTakesOneInput := by
  unfold Obligations.StepKeepsParametersAndTakesOneInput
  intro s t hst
  rcases step_next_cases hst with ⟨hin, rfl⟩ | ⟨i, hi⟩ | ⟨e, r, -, rfl⟩
  · exact ⟨rfl, by rw [hin]; rfl⟩
  · exact exec_frame hi
  · exact ⟨rfl, rfl⟩

/-! ### The lifetime of DONE -/

/-- The op field is what the mask 0x700 leaves of a command word (R57). -/
theorem opField_of_mask {w : CmdWord} {op : BitVec 3} (h : w &&& 0x700#11 = cmdWord op 0#8) : opField w = op := by
  have hmask : opField (w &&& 0x700#11) = opField w := by
    simp only [opField, BitVec.extractLsb'_and]
    exact BitVec.and_allOnes
  rw [← hmask, h, opField_cmdWord]

/-- Settles O19: of the instructions only an insert and DEC.RESET touch DONE, and one insert sets it. -/
theorem isCompletedReportsDoneFromEndToNextInsert : Obligations.IsCompletedReportsDoneFromEndToNextInsert := by
  unfold Obligations.IsCompletedReportsDoneFromEndToNextInsert
  refine ⟨fun e w hw => ?_, fun s => ⟨_, rfl, rfl, rfl⟩, rfl, fun i s t _ h => ?_⟩
  · have hop : opField w = 3#3 := opField_of_mask hw
    simp [decode, decodeCmd, hop]
  · rcases exec_next_cases h with ⟨b, hw, hb⟩ | ⟨rfl, rfl⟩ | ⟨hw, hi, e, r, -, rfl⟩
    · simp [hw, insertByte_done hb]
    · simp [clearDecoder, wireByte]
    · simp [hw, hi]

/-! ### The lifetime of ESCP -/

/-- In a state of the invariant a pending escape shuts out the implicit reset (R17). -/
theorem implicitReset_of_escp {s : State} (hs : s.Inv) (he : s.escp = true) : implicitReset s = s := by
  obtain ⟨-, -, hde, -⟩ := hs
  exact implicitReset_of_not_done (by simpa [he] using hde)

/-- Within its capacity ACC has room or is exactly full (R14). -/
theorem room_or_iff {s : State} (hs : s.Inv) {p : Prop} :
    s.acc.length < s.params.decCap ∨ p ↔
      s.acc.length < s.params.decCap ∨ s.acc.length = s.params.decCap ∧ p := by
  obtain ⟨-, hacc, -⟩ := hs
  have hlen : s.acc.length ≤ s.params.decCap := of_decide_eq_true hacc
  rcases hlen.lt_or_eq with h | h <;> simp [h]

/-- R15: an instruction that inserts no byte answers alike, and leaves the buffers and DONE alike, whatever ESCP is. -/
theorem exec_ignores_escp {i : Instr} {s t : State} (v : Bool) (hw : wireByte i = none) (h : exec i s = .next t) :
    ∃ t', exec i (s.withEscp v) = .next t' ∧ t'.reply = t.reply ∧ t'.ebuf = t.ebuf ∧ t'.acc = t.acc ∧
      t'.done = t.done := by
  cases i with
  | decInsert | wireEnd | wireEsc | wireData | wireEscEnd | wireEscEsc | wireBadEsc => cases hw
  | reserved5 | reserved6 | reserved7 => cases h
  | encode =>
    obtain ⟨ebuf, r, rfl, hloc⟩ := execEncode_encLocal.of_next h
    exact ⟨_, hloc (s.withEscp v) ⟨rfl, rfl⟩, rfl, rfl, rfl, rfl⟩
  | decReset | decIsCompleted | decGetBuffer | stuffEnd | stuffEsc | stuffPlain =>
    cases h
    exact ⟨_, rfl, rfl, rfl, rfl, rfl⟩

/-- Settles O21: of the instructions only an insert and DEC.RESET touch ESCP, and no other than an insert reads it. -/
theorem escpIsSetByEscAndHiddenFromReads : Obligations.EscpIsSetByEscAndHiddenFromReads := by
  unfold Obligations.EscpIsSetByEscAndHiddenFromReads
  refine ⟨rfl, fun i s t _ h he => ?_, fun i s t hs h he => ?_, fun i s t v hw h => exec_ignores_escp v hw h⟩
  · rcases exec_next_cases h with ⟨b, hw, hb⟩ | ⟨rfl, rfl⟩ | ⟨hw, hi, e, r, -, rfl⟩
    · simp [hw, insertByte_sets_escp hb he]
    · simp [clearDecoder, wireByte]
    · simp [hw, he]
  · rcases exec_next_cases h with ⟨b, hw, hb⟩ | ⟨rfl, rfl⟩ | ⟨hw, hi, e, r, -, rfl⟩
    · have hi : i ≠ .decReset := by rintro rfl; cases hw
      rw [insertByte_clears_escp hb he, implicitReset_of_escp hs he, room_or_iff hs]
      simp [hw, hi, and_or_left, or_assoc, and_assoc]
    · simp [clearDecoder]
    · simp [hw, hi, he]

end Sys2Proof.Machine
end

section
/-! The memory (spec/20_memory.md): which cells an insert may write, the instructions that store nothing, and what a step
makes of a presented word or of the caller's access to EBUF. -/

namespace Sys2Proof.Machine

/-! ### The cells an insert may write -/

theorem readByte_ebuf (s : State) (k : Nat) : s.readByte .ebuf k = s.ebuf[k]? := rfl

theorem readByte_acc (s : State) (k : Nat) : s.readByte .acc k = s.acc[k]? := rfl

/-- Appending a byte touches only the cell at the old length (R35). -/
theorem getElem?_snoc_of_ne {b : Buffer} {v : Byte} {k : Nat} (h : k ≠ b.length) : (b ++ [v])[k]? = b[k]? := by
  rw [List.getElem?_append]
  split
  · rfl
  · rw [List.getElem?_singleton, if_neg (by omega), List.getElem?_eq_none (by omega)]

/-- Settles O28: without an implicit reset an insert leaves ACC as it is or appends one byte to it. -/
theorem insertWritesOnlyTheNextCell : Obligations.InsertWritesOnlyTheNextCell := by
  unfold Obligations.InsertWritesOnlyTheNextCell
  intro i b s t hw hd hst
  rw [exec_of_wireByte hw] at hst
  obtain ⟨hp, hi, he⟩ := insertByte_frame hst
  have hebuf : ∀ k, t.readByte .ebuf k = s.readByte .ebuf k := fun k => by rw [readByte_ebuf, he, readByte_ebuf]
  have hacc := insertByte_acc hst
  rw [implicitReset_of_not_done hd] at hacc
  rcases hacc with ha | ⟨-, v, ha⟩
  · exact ⟨fun k _ => by rw [readByte_acc, ha, readByte_acc], hebuf, .inl (by rw [ha]), hp, hi⟩
  · refine ⟨fun k hk => ?_, hebuf, .inr (by simp [ha]), hp, hi⟩
    rw [readByte_acc, ha, getElem?_snoc_of_ne hk, readByte_acc]

/-! ### The instructions that store nothing -/

/-- A read or a STUFF row only answers, and its answer does not depend on the answer before it. -/
theorem exec_read {i : Instr} {s t : State}
    (hi : i = .decIsCompleted ∨ i = .decGetBuffer ∨ i = .stuffEnd ∨ i = .stuffEsc ∨ ∃ b, i = .stuffPlain b)
    (h : exec i s = .next t) : (∃ r, t = s.withReply (some r)) ∧ exec i t = .next t := by
  rcases hi with rfl | rfl | rfl | rfl | ⟨b, rfl⟩ <;> cases h <;> exact ⟨⟨_, rfl⟩, rfl⟩

/-- Settles O29: only the answer changes, and no cell, flag, parameter or input is part of it. -/
theorem readsChangeNothing : Obligations.ReadsChangeNothing := by
  unfold Obligations.ReadsChangeNothing
  intro i s t hi hst
  obtain ⟨⟨r, rfl⟩, hagain⟩ := exec_read hi hst
  exact ⟨fun n _ => by cases n <;> rfl, ⟨rfl, rfl, rfl, rfl, rfl⟩, rfl, hagain⟩

/-! ### A step on each kind of input -/

theorem step_of_no_input {s : State} (h : s.input = []) : step s = .next s := by
  simp [step, h, idle]

theorem step_of_word {s : State} {x : CodeWord} {rest : List Input} {i : Instr} (h : s.input = .word x :: rest)
    (hd : decode s.escp x = .ok i) : step s = exec i (s.withInput rest) := by
  simp [step, h, issue, hd]

theorem step_of_access {s : State} {a : Access} {rest : List Input} (h : s.input = .access a :: rest) :
    step s = execAccess a (s.withInput rest) := by
  simp [step, h, issue]

/-- Settles O36: a step issues the oldest input, and taking it from the list does not touch ESCP. -/
theorem stepRunsTheDecodedInstruction : Obligations.StepRunsTheDecodedInstruction := by
  unfold Obligations.StepRunsTheDecodedInstruction
  exact ⟨fun s x rest i h hd => step_of_word h hd, fun s h => step_of_no_input h⟩

/-! ### The caller's accesses -/

theorem execAccess_get_of_lt {s : State} {k : Nat} (h : k < s.ebuf.length) :
    execAccess (.get k) s = answer (.byte s.ebuf[k]) s := by
  simp [execAccess, readByte_ebuf, List.getElem?_eq_getElem h]

theorem execAccess_get_of_ge {s : State} {k : Nat} (h : s.ebuf.length ≤ k) :
    execAccess (.get k) s = .refused .bufGetOutOfRange := by
  simp [execAccess, readByte_ebuf, List.getElem?_eq_none h]

theorem execAccess_push_of_lt {s : State} (b : Byte) (h : s.ebuf.length < s.params.encCap) :
    execAccess (.push b) s = answer (.pushed true) (s.withEbuf (s.ebuf ++ [b])) := by
  simp [execAccess, bufPush_eq_some.mpr ⟨h, rfl⟩]

theorem execAccess_push_of_ge {s : State} (b : Byte) (h : s.params.encCap ≤ s.ebuf.length) :
    execAccess (.push b) s = answer (.pushed false) s := by
  simp [execAccess, bufPush_eq_none.mpr h]

theorem execAccess_replace_of_le {s : State} {bs : List Byte} (h : bs.length ≤ s.params.encCap) :
    execAccess (.replace bs) s = answer .replaced (s.withEbuf bs) := by
  simp [execAccess, bufReplace_eq_some.mpr ⟨h, rfl⟩]

theorem execAccess_replace_of_lt {s : State} {bs : List Byte} (h : s.params.encCap < bs.length) :
    execAccess (.replace bs) s = .refused .bufReplaceTooLong := by
  simp [execAccess, bufReplace_eq_none.mpr h]

/-- Settles O38: a step on an access performs it on the state with that input taken, and each primitive answers by the
index, the room left or the length of the new content. -/
theorem callerAccessesReadAndWriteEbuf : Obligations.CallerAccessesReadAndWriteEbuf := by
  unfold Obligations.CallerAccessesReadAndWriteEbuf
  intro s rest
  refine ⟨fun hin => ?len, fun hin => ?cap, fun k hk hin => ?get, fun k hk hin => ?getOutside,
    fun b hin hroom => ?push, fun b hin hfull => ?pushFull, fun bs hin hfits => ?replace,
    fun bs hin hlong => ?replaceTooLong⟩ <;> rw [step_of_access hin]
  case len => rfl
  case cap => rfl
  case get => exact execAccess_get_of_lt (s := s.withInput rest) hk
  case getOutside => exact execAccess_get_of_ge (s := s.withInput rest) hk
  case push => exact execAccess_push_of_lt (s := s.withInput rest) b hroom
  case pushFull => exact execAccess_push_of_ge (s := s.withInput rest) b hfull.ge
  case replace => exact execAccess_replace_of_le (s := s.withInput rest) hfits
  case replaceTooLong => exact execAccess_replace_of_lt (s := s.withInput rest) hlong

end Sys2Proof.Machine
end

section
/-! The encodings (spec/30_encoding.md): byte stuffing and the frame, the fields of a command word, decode and encode as
inverses, the words a step refuses, a word of the opcode table presented next, and the WIRE rows' transitions. -/

namespace Sys2Proof.Machine

/-! ### Byte stuffing and the frame -/

theorem stuff_of_not_special {b : Byte} (h1 : b ≠ END) (h2 : b ≠ ESC) : stuff b = [b] := by
  simp [stuff, h1, h2]

theorem stuffAll_eq_flatMap (P : List Byte) : stuffAll P = P.flatMap stuff := by
  induction P with
  | nil => rfl
  | cons b P ih => rw [stuffAll, ih, List.flatMap_cons]

theorem countSpecial_eq_countP (P : List Byte) :
    countSpecial P = P.countP (fun b => b = 0xC0#8 ∨ b = 0xDB#8) := by
  induction P with
  | nil => rfl
  | cons b P ih => simp [countSpecial, List.countP_cons, ih, isSpecial_iff, Nat.add_comm]

theorem frameLength_eq (P : List Byte) :
    frameLength P = P.length + P.countP (fun b => b = 0xC0#8 ∨ b = 0xDB#8) + 2 := by
  rw [frameLength, countSpecial_eq_countP]

/-- Settles O4: stuff_all is the concatenation of stuff, and count_special counts END and ESC. -/
theorem frameHasExactLength : Obligations.FrameHasExactLength := by
  unfold Obligations.FrameHasExactLength
  exact ⟨fun P => by rw [frame, stuffAll_eq_flatMap], fun P => (frame_length P).trans (frameLength_eq P)⟩

/-- Settles O5: stuffing a concatenation stuffs its parts. -/
theorem stuffingReplacesEachByteInPlace : Obligations.StuffingReplacesEachByteInPlace := by
  unfold Obligations.StuffingReplacesEachByteInPlace
  intro P Q b
  calc stuffAll (P ++ b :: Q)
      = stuffAll P ++ (stuff b ++ stuffAll Q) := by
        simp only [stuffAll_eq_flatMap, List.flatMap_append, List.flatMap_cons]
    _ = stuffAll P ++ stuff b ++ stuffAll Q := (List.append_assoc _ _ _).symm

/-- Settles O8: a STUFF row answers what its payload byte is stuffed into. -/
theorem stuffRowsAnswerFrameBytes : Obligations.StuffRowsAnswerFrameBytes := by
  unfold Obligations.StuffRowsAnswerFrameBytes
  refine fun s => ⟨rfl, rfl, fun b h1 h2 => ?_⟩
  rw [exec_of_payloadByte (b := b) rfl, stuff_of_not_special h1 h2]
  rfl

/-! ### The fields of a command word -/

/-- A command word is its two fields side by side (R57). -/
theorem cmdWord_fields (w : CmdWord) : cmdWord (opField w) (dataField w) = w := by
  apply BitVec.eq_of_getLsbD_eq
  intro i hi
  rw [getLsbD_cmdWord]
  split
  · simp [dataField, *]
  · have h : 8 + (i - 8) = i := by omega
    simp [opField, h, show i - 8 < 3 by omega]

/-- The mask 0x700 keeps op and clears data (R57). -/
theorem and_mask_eq (w : CmdWord) : w &&& 0x700#11 = cmdWord (opField w) 0#8 := by
  calc w &&& 0x700#11
      = cmdWord (opField w) (dataField w) &&& cmdWord 7#3 0#8 := by rw [cmdWord_fields]; rfl
    _ = cmdWord (opField w &&& 7#3) (dataField w &&& 0#8) := BitVec.and_append
    _ = cmdWord (opField w) 0#8 := congrArg₂ cmdWord BitVec.and_allOnes BitVec.and_zero

theorem mask_eq_iff {w : CmdWord} {op : BitVec 3} : w &&& 0x700#11 = cmdWord op 0#8 ↔ opField w = op :=
  ⟨opField_of_mask, fun h => by rw [and_mask_eq, h]⟩

/-- R57: op alone selects the operation, and data is read for op = 2 only. -/
theorem decodeCmd_eq_of_opField_eq {w w' : CmdWord} (h : opField w = opField w') (h2 : opField w ≠ 2#3) :
    decodeCmd w = decodeCmd w' := by
  rcases decodeCmd_cases w with ⟨ho, -⟩ | ⟨ho, -⟩ | ⟨ho, -⟩ | ⟨ho, -⟩ | ⟨ho, -⟩ | ⟨ho, -⟩ | ⟨ho, -⟩ | ⟨ho, -⟩
  case inr.inr.inl => exact absurd ho h2
  all_goals simp [decodeCmd, ← h, ho]

theorem decodeCmd_insert {w : CmdWord} (h : opField w = 2#3) : decodeCmd w = .ok (.decInsert (dataField w)) := by
  simp [decodeCmd, h]

/-- Settles O33: decoding looks at op, and at data for op = 2 only, where the byte is data bit by bit. -/
theorem dataFieldIsReadByDecInsertOnly : Obligations.DataFieldIsReadByDecInsertOnly := by
  unfold Obligations.DataFieldIsReadByDecInsertOnly
  refine ⟨fun e w w' h h2 => ?_, fun e w h => ⟨dataField w, decodeCmd_insert (opField_of_mask h), fun k hk => ?_⟩⟩
  · rw [and_mask_eq w'] at h
    exact decodeCmd_eq_of_opField_eq (opField_of_mask h) fun ho => h2 (mask_eq_iff.mpr ho)
  · simp [dataField, hk]

/-- Settles O32: the decoder evaluated on each word. -/
theorem writtenOutWordsDecode : Obligations.WrittenOutWordsDecode := by
  unfold Obligations.WrittenOutWordsDecode
  exact ⟨rfl, rfl, rfl, rfl, rfl, rfl, rfl, rfl, rfl, rfl⟩

/-! ### Decode of encode -/

theorem isSpecial_eq_false_iff {b : Byte} : isSpecial b = false ↔ b ≠ END ∧ b ≠ ESC := by
  simp [← Bool.not_eq_true, isSpecial_iff]

theorem unescape_eq_none_iff {b : Byte} : unescape b = none ↔ b ≠ ESC_END ∧ b ≠ ESC_ESC := by
  by_cases h1 : b = ESC_END
  · simp [unescape, h1]
  · simp [unescape, h1]

theorem wf_wireData_iff {b : Byte} : (Instr.wireData b).wf = true ↔ b ≠ END ∧ b ≠ ESC := by
  simp [Instr.wf, isSpecial_eq_false_iff]

theorem wf_wireBadEsc_iff {b : Byte} : (Instr.wireBadEsc b).wf = true ↔ b ≠ ESC_END ∧ b ≠ ESC_ESC := by
  simp [Instr.wf, unescape_eq_none_iff]

theorem wf_stuffPlain_iff {b : Byte} : (Instr.stuffPlain b).wf = true ↔ b ≠ END ∧ b ≠ ESC := by
  simp [Instr.wf, isSpecial_eq_false_iff]

theorem classify_data {b : Byte} (h1 : b ≠ END) (h2 : b ≠ ESC) : classify false b = .data := by
  simp [classify, h1, h2]

theorem classify_badEsc {b : Byte} (h1 : b ≠ ESC_END) (h2 : b ≠ ESC_ESC) : classify true b = .badEsc := by
  simp [classify, h1, h2]

theorem stuffClass_plain {b : Byte} (h1 : b ≠ END) (h2 : b ≠ ESC) : stuffClass b = .plain := by
  simp [stuffClass, h1, h2]

/-- What a payload byte decodes to (R53). -/
theorem decodePayload_cases (b : Byte) :
    (b = END ∧ decodePayload b = .stuffEnd) ∨ (b = ESC ∧ decodePayload b = .stuffEsc) ∨
    (b ≠ END ∧ b ≠ ESC ∧ decodePayload b = .stuffPlain b) := by
  by_cases h1 : b = END
  · exact .inl ⟨h1, by rw [h1]; rfl⟩
  · by_cases h2 : b = ESC
    · exact .inr (.inl ⟨h2, by rw [h2]; rfl⟩)
    · exact .inr (.inr ⟨h1, h2, by rw [decodePayload, stuffClass_plain h1 h2]⟩)

theorem eq_of_contextEscp {i : Instr} {c e : Bool} (hc : contextEscp i = some c)
    (h : contextEscp i = none ∨ contextEscp i = some e) : c = e := by
  simpa [hc] using h

/-- Settles O34: a command word gives its fields back, and a wire or payload byte has the class its row names. -/
theorem decodeOfEncodeIsTheInstruction : Obligations.DecodeOfEncodeIsTheInstruction := by
  unfold Obligations.DecodeOfEncodeIsTheInstruction
  intro i e hwf hctx
  cases i with
  | encode | decReset | decInsert | decIsCompleted | decGetBuffer => simp [encode, decode, decodeCmd]
  | reserved5 | reserved6 | reserved7 => cases hwf
  | wireEnd | wireEsc | wireEscEnd | wireEscEsc =>
    obtain rfl := eq_of_contextEscp rfl hctx
    rfl
  | wireData b =>
    obtain rfl := eq_of_contextEscp rfl hctx
    obtain ⟨h1, h2⟩ := wf_wireData_iff.mp hwf
    simp [encode, decode, decodeWire, classify_data h1 h2]
  | wireBadEsc b =>
    obtain rfl := eq_of_contextEscp rfl hctx
    obtain ⟨h1, h2⟩ := wf_wireBadEsc_iff.mp hwf
    simp [encode, decode, decodeWire, classify_badEsc h1 h2]
  | stuffEnd | stuffEsc => rfl
  | stuffPlain b =>
    obtain ⟨h1, h2⟩ := wf_stuffPlain_iff.mp hwf
    simp [encode, decode, decodePayload, stuffClass_plain h1 h2]

/-! ### Encode of decode -/

/-- A command word that decodes is its instruction's word, but for data, which is read for DEC.INSERT only. -/
theorem encode_of_decodeCmd {w : CmdWord} {i : Instr} (h : decodeCmd w = .ok i) :
    i.wf = true ∧ contextEscp i = none ∧
    (encode i = .cmd w ∨ opField w ≠ 2#3 ∧ encode i = .cmd (cmdWord (opField w) 0#8)) := by
  rcases decodeCmd_cases w with ⟨ho, hd⟩ | ⟨ho, hd⟩ | ⟨ho, hd⟩ | ⟨ho, hd⟩ | ⟨ho, hd⟩ | ⟨ho, hd⟩ | ⟨ho, hd⟩ | ⟨ho, hd⟩ <;>
    rw [hd] at h <;> cases h
  case inr.inr.inl => exact ⟨rfl, rfl, .inl (by rw [encode, ← cmdWord_fields w, ho, dataField_cmdWord]; rfl)⟩
  all_goals exact ⟨rfl, rfl, .inr ⟨by simp [ho], by rw [ho]; rfl⟩⟩

/-- A wire byte is the word of its row, in the decoder state the row's format names. -/
theorem encode_decodeWire (e : Bool) (b : Byte) :
    (decodeWire e b).wf = true ∧ contextEscp (decodeWire e b) = some e ∧ encode (decodeWire e b) = .wire b := by
  rcases decodeWire_cases e b with ⟨rfl, rfl, hd⟩ | ⟨rfl, rfl, hd⟩ | ⟨rfl, h1, h2, hd⟩ | ⟨rfl, rfl, hd⟩ |
    ⟨rfl, rfl, hd⟩ | ⟨rfl, h1, h2, hd⟩ <;> rw [hd]
  · exact ⟨rfl, rfl, rfl⟩
  · exact ⟨rfl, rfl, rfl⟩
  · exact ⟨wf_wireData_iff.mpr ⟨h1, h2⟩, rfl, rfl⟩
  · exact ⟨rfl, rfl, rfl⟩
  · exact ⟨rfl, rfl, rfl⟩
  · exact ⟨wf_wireBadEsc_iff.mpr ⟨h1, h2⟩, rfl, rfl⟩

/-- A payload byte is the word of its row. -/
theorem encode_decodePayload (b : Byte) :
    (decodePayload b).wf = true ∧ contextEscp (decodePayload b) = none ∧ encode (decodePayload b) = .payload b := by
  rcases decodePayload_cases b with ⟨rfl, hd⟩ | ⟨rfl, hd⟩ | ⟨h1, h2, hd⟩ <;> rw [hd]
  · exact ⟨rfl, rfl, rfl⟩
  · exact ⟨rfl, rfl, rfl⟩
  · exact ⟨wf_stuffPlain_iff.mpr ⟨h1, h2⟩, rfl, rfl⟩

/-- Settles O35: for each kind of word, what it decodes to encodes back to it. -/
theorem encodeOfDecodeIsTheWord : Obligations.EncodeOfDecodeIsTheWord := by
  unfold Obligations.EncodeOfDecodeIsTheWord
  intro e x i h
  cases x with
  | cmd w =>
    obtain ⟨hwf, hctx, hw | ⟨hop, hw⟩⟩ := encode_of_decodeCmd h
    · exact ⟨hwf, .inl hctx, .inl hw⟩
    · exact ⟨hwf, .inl hctx, .inr ⟨w, rfl, fun hm => hop (opField_of_mask hm), by rw [and_mask_eq, hw]⟩⟩
  | wire b =>
    cases h
    obtain ⟨hwf, hctx, hw⟩ := encode_decodeWire e b
    exact ⟨hwf, .inr hctx, .inl hw⟩
  | payload b =>
    cases h
    obtain ⟨hwf, hctx, hw⟩ := encode_decodePayload b
    exact ⟨hwf, .inl hctx, .inl hw⟩

/-! ### What a step refuses -/

/-- The operation code a rejection names (R60). -/
def reservedOp : Reject → BitVec 3
  | .reserved5 => 5#3
  | .reserved6 => 6#3
  | .reserved7 => 7#3

/-- R60: of all words the decoder rejects the command words with a reserved code, under that code's name. -/
theorem decode_eq_error_iff {e : Bool} {x : CodeWord} {r : Reject} :
    decode e x = .error r ↔ ∃ w, x = .cmd w ∧ opField w = reservedOp r := by
  cases x with
  | cmd w =>
    rcases decodeCmd_cases w with
      ⟨ho, hd⟩ | ⟨ho, hd⟩ | ⟨ho, hd⟩ | ⟨ho, hd⟩ | ⟨ho, hd⟩ | ⟨ho, hd⟩ | ⟨ho, hd⟩ | ⟨ho, hd⟩ <;>
      cases r <;> simp [decode, hd, ho, reservedOp]
  | wire b => simp [decode]
  | payload b => simp [decode]

theorem decode_of_reserved_mask {w : CmdWord} {r : Reject} (e : Bool)
    (h : w &&& 0x700#11 = cmdWord (reservedOp r) 0#8) : decode e (.cmd w) = .error r :=
  decode_eq_error_iff.mpr ⟨w, rfl, opField_of_mask h⟩

theorem step_of_reject {s : State} {x : CodeWord} {rest : List Input} {r : Reject} (h : s.input = .word x :: rest)
    (hd : decode s.escp x = .error r) : step s = .refused (refusalOf r) := by
  simp [step, h, issue, hd]

theorem step_of_reserved_mask {s : State} {w : CmdWord} {rest : List Input} (r : Reject)
    (hin : s.input = .word (.cmd w) :: rest) (h : w &&& 0x700#11 = cmdWord (reservedOp r) 0#8) :
    step s = .refused (refusalOf r) :=
  step_of_reject hin (decode_of_reserved_mask _ h)

/-- Settles O26: the decoder rejects the three codes by name and a step passes the name on. -/
theorem reservedCodesAreRefusedByName : Obligations.ReservedCodesAreRefusedByName := by
  unfold Obligations.ReservedCodesAreRefusedByName
  exact ⟨fun e w => ⟨decode_of_reserved_mask (r := .reserved5) e, decode_of_reserved_mask (r := .reserved6) e,
      decode_of_reserved_mask (r := .reserved7) e⟩,
    fun s w rest hin => ⟨step_of_reserved_mask .reserved5 hin, step_of_reserved_mask .reserved6 hin,
      step_of_reserved_mask .reserved7 hin⟩,
    fun s => ⟨rfl, rfl, rfl⟩⟩

/-- A well-formed instruction is ENCODE, an operation of the decoder, or a STUFF row. -/
theorem wf_cases {i : Instr} (h : i.wf = true) : i = .encode ∨ i.isDec = true ∨ ∃ b, payloadByte i = some b := by
  cases i with
  | encode => exact .inl rfl
  | decReset | decInsert | decIsCompleted | decGetBuffer => exact .inr (.inl rfl)
  | reserved5 | reserved6 | reserved7 => cases h
  | wireEnd | wireEsc | wireData | wireEscEnd | wireEscEsc | wireBadEsc => exact .inr (.inl rfl)
  | stuffEnd | stuffEsc | stuffPlain => exact .inr (.inr ⟨_, rfl⟩)

/-- A well-formed instruction answers from every state. -/
theorem exec_answers {i : Instr} (h : i.wf = true) (s : State) : ∃ t r, exec i s = answer r t := by
  rcases wf_cases h with rfl | hdec | ⟨b, hb⟩
  · obtain ⟨ebuf, r, hloc⟩ := execEncode_encLocal s
    exact ⟨_, r, hloc s ⟨rfl, rfl⟩⟩
  · obtain ⟨acc, escp, done, r, hloc⟩ := exec_decLocal hdec s
    exact ⟨_, r, hloc s ⟨rfl, rfl, rfl, rfl⟩⟩
  · exact ⟨s, _, exec_of_payloadByte hb s⟩

theorem wf_of_decode {e : Bool} {x : CodeWord} {i : Instr} (h : decode e x = .ok i) : i.wf = true := by
  obtain ⟨hwf, -⟩ := encodeOfDecodeIsTheWord e x i h
  exact hwf

/-- An access that answers no next state is a read outside EBUF or a replace that is too long. -/
theorem execAccess_stops (a : Access) (s : State) :
    (∃ t, execAccess a s = .next t) ∨
    (∃ k, a = .get k ∧ s.ebuf.length ≤ k ∧ execAccess a s = .refused .bufGetOutOfRange) ∨
    (∃ bs, a = .replace bs ∧ s.params.encCap < bs.length ∧ execAccess a s = .refused .bufReplaceTooLong) := by
  rcases execAccess_cases a s with ⟨-, h⟩ | ⟨-, h⟩ | ⟨_, _, -, -, h⟩ | hget | ⟨_, -, -, h⟩ | ⟨_, -, -, h⟩ |
    ⟨_, -, -, h⟩ | hreplace
  · exact .inl ⟨_, h⟩
  · exact .inl ⟨_, h⟩
  · exact .inl ⟨_, h⟩
  · exact .inr (.inl hget)
  · exact .inl ⟨_, h⟩
  · exact .inl ⟨_, h⟩
  · exact .inl ⟨_, h⟩
  · exact .inr (.inr hreplace)

/-- Settles O25: what decodes is well-formed and so answers; there is no fault to stop in. -/
theorem stepStopsOnlyOnReservedCodesAndBadAccesses : Obligations.StepStopsOnlyOnReservedCodesAndBadAccesses := by
  unfold Obligations.StepStopsOnlyOnReservedCodesAndBadAccesses
  refine fun s => ⟨nofun, ?_⟩
  rcases step_cases s with ⟨-, ho⟩ | ⟨x, rest, i, -, hd, ho⟩ | ⟨x, rest, r, hin, hd, ho⟩ | ⟨a, rest, hin, ho⟩
  · exact .inl ⟨s, ho⟩
  · obtain ⟨t, r, hr⟩ := exec_answers (wf_of_decode hd) (s.withInput rest)
    exact .inl ⟨_, ho.trans hr⟩
  · obtain ⟨w, rfl, hop⟩ := decode_eq_error_iff.mp hd
    have hmask := mask_eq_iff.mpr hop
    cases r with
    | reserved5 => exact .inr (.inl ⟨w, rest, hin, hmask, ho⟩)
    | reserved6 => exact .inr (.inr (.inl ⟨w, rest, hin, hmask, ho⟩))
    | reserved7 => exact .inr (.inr (.inr (.inl ⟨w, rest, hin, hmask, ho⟩)))
  · rw [ho]
    rcases execAccess_stops a (s.withInput rest) with hnext | ⟨k, rfl, hk, h⟩ | ⟨bs, rfl, hl, h⟩
    · exact .inl hnext
    · exact .inr (.inr (.inr (.inr (.inl ⟨k, rest, hin, hk, h⟩))))
    · exact .inr (.inr (.inr (.inr (.inr ⟨bs, rest, hin, hl, h⟩))))

/-! ### A word of the opcode table, presented next -/

theorem decodeTableWord_eq_some_iff {nbits w : Nat} {i : Instr} :
    decodeTableWord nbits w = some i ↔ ∃ x, tableCodeWord nbits w = some x ∧ decode (tableEscp x) x = .ok i := by
  unfold decodeTableWord
  cases tableCodeWord nbits w with
  | none => simp
  | some x => cases hd : decode (tableEscp x) x <;> simp [hd]

theorem tableCodeWord_ne_payload {nbits w : Nat} {b : Byte} : tableCodeWord nbits w ≠ some (.payload b) := by
  unfold tableCodeWord
  split <;> split <;> simp

theorem withFetchWord_eq_present {nbits w : Nat} {x : CodeWord} (h : tableCodeWord nbits w = some x) (s : State) :
    s.withFetchWord nbits w = present x s := by
  simp [State.withFetchWord, h]

/-- Settles O37: a wire byte is read in the state its row names, and a command word reads alike in both. -/
theorem presentedTableWordRunsNext : Obligations.PresentedTableWordRunsNext := by
  unfold Obligations.PresentedTableWordRunsNext
  intro s nbits w i h
  obtain ⟨x, hx, hd⟩ := decodeTableWord_eq_some_iff.mp h
  rw [withFetchWord_eq_present hx]
  cases x with
  | cmd c =>
    obtain ⟨-, hctx, -⟩ := encode_of_decodeCmd hd
    exact ⟨s.escp, .inr ⟨hctx, rfl⟩, step_of_word (s := present (.cmd c) s) rfl hd⟩
  | wire b =>
    obtain ⟨-, hctx, -⟩ := encode_decodeWire (tableEscp (.wire b)) b
    exact ⟨tableEscp (.wire b), .inl (Except.ok.inj hd ▸ hctx), step_of_word (s := present (.wire b) s) rfl hd⟩
  | payload b => exact absurd hx tableCodeWord_ne_payload

/-! ### The WIRE rows -/

/-- Settles O18: both are the insert of the byte. -/
theorem wireRowsAgreeWithDecInsert : Obligations.WireRowsAgreeWithDecInsert := by
  unfold Obligations.WireRowsAgreeWithDecInsert
  exact fun i b s h => exec_of_wireByte h s

theorem answers_finish (t : State) : Answers (finish t) t .ok := ⟨okResponse, rfl, rfl⟩

theorem answers_raise (e : SlipError) (t : State) : Answers (raise e t) t (.error e) := ⟨errorResponse e, rfl, rfl⟩

/-- Without an implicit reset an insert is the transition of the byte's class (R82, R87). -/
theorem insertByte_of_not_done {b : Byte} {s : State} {c : WireClass} (hd : s.done = false)
    (hc : classify s.escp b = c) : insertByte b s = transition c b s := by
  rw [insertByte, implicitReset_of_not_done hd, hc]

theorem onEnd_of_ne_nil {s : State} (h : 1 ≤ s.acc.length) : onEnd s = finish (s.withDone true) := by
  rw [onEnd, doneAfterEnd, if_pos h]

theorem onEnd_of_nil {s : State} (h : s.acc.length = 0) : onEnd s = finish s := by
  rw [onEnd, doneAfterEnd, if_neg (by omega)]
  rfl

theorem onData_of_room {s : State} (b : Byte) (h : s.acc.length < s.params.decCap) :
    onData b s = finish (s.withAcc (s.acc ++ [b])) := by
  rw [onData, bufPush_eq_some.mpr ⟨h, rfl⟩]

theorem onData_of_full {s : State} (b : Byte) (h : s.params.decCap ≤ s.acc.length) :
    onData b s = raise .capacityExceeded s := by
  rw [onData, bufPush_eq_none.mpr h]

theorem onEscPair_of_room {s : State} (v : Byte) (h : s.acc.length < s.params.decCap) :
    onEscPair v s = finish ((s.withAcc (s.acc ++ [v])).withEscp false) := by
  rw [onEscPair, bufPush_eq_some.mpr ⟨h, rfl⟩]

theorem onEscPair_of_full {s : State} (v : Byte) (h : s.params.decCap ≤ s.acc.length) :
    onEscPair v s =
      raise .capacityExceeded (s.withEscp (escpAfterOverflow s.params.escOvfPolicy s.escp)) := by
  rw [onEscPair, bufPush_eq_none.mpr h]

/-- Settles O17: the byte of each row has, in the row's decoder state, the class whose transition the statement gives. -/
theorem wireRowsMakeTheirTransition : Obligations.WireRowsMakeTheirTransition := by
  unfold Obligations.WireRowsMakeTheirTransition
  intro s hd
  have hrow : ∀ {i : Instr} {b : Byte} (c : WireClass), wireByte i = some b → classify s.escp b = c →
      exec i s = transition c b s :=
    fun c hw hc => (exec_of_wireByte hw s).trans (insertByte_of_not_done hd hc)
  refine ⟨fun he => ?accumulating, fun he => ?escapePending⟩ <;> rw [he] at hrow
  case accumulating =>
    rw [hrow .endByte rfl rfl, hrow .escByte rfl rfl, transition, transition]
    refine ⟨fun h => ?_, fun h => ?_, answers_finish _, fun b h1 h2 => ?_⟩
    · rw [onEnd_of_ne_nil h]
      exact answers_finish _
    · rw [onEnd_of_nil h]
      exact answers_finish _
    · rw [hrow .data rfl (classify_data h1 h2), transition]
      refine ⟨fun h => ?_, fun h => ?_⟩
      · rw [onData_of_room b h]
        exact answers_finish _
      · rw [onData_of_full b h.ge]
        exact answers_raise _ _
  case escapePending =>
    rw [hrow .escEnd rfl rfl, hrow .escEsc rfl rfl, transition, transition, ← he]
    refine ⟨fun h => ?_, fun h => ?_, fun b h1 h2 => ?_⟩
    · rw [onEscPair_of_room _ h, onEscPair_of_room _ h]
      exact ⟨answers_finish _, answers_finish _⟩
    · rw [onEscPair_of_full _ h.ge, onEscPair_of_full _ h.ge]
      exact ⟨answers_raise _ _, answers_raise _ _⟩
    · rw [hrow .badEsc rfl (classify_badEsc h1 h2)]
      exact answers_raise _ _

end Sys2Proof.Machine
end

section
/-! The encoder (spec/40_encoder.md): the frame decoded again, byte by byte, what ENCODE answers on either side of its
length test, and the form of the frame it leaves in EBUF. -/

namespace Sys2Proof.Machine

/-! ### Inserting a frame -/

/-- The inserts go on after one that returns Ok (R63). -/
theorem insertAll_cons_of_finish {b : Byte} {bs : List Byte} {s t : State} (h : insertByte b s = finish t) :
    insertAll (b :: bs) s = insertAll bs (t.withReply (some (.op okResponse))) := by
  rw [insertAll, execDecInsert, h]
  rfl

theorem cases_of_unescape {c v : Byte} (h : unescape c = some v) :
    (c = ESC_END ∧ v = END) ∨ (c = ESC_ESC ∧ v = ESC) := by
  unfold unescape at h
  split at h
  · exact .inl ⟨‹_›, (Option.some.inj h).symm⟩
  · split at h
    · exact .inr ⟨‹_›, (Option.some.inj h).symm⟩
    · cases h

/-- The second byte of a valid pair is taken for the byte the pair stands for (R54, R88, R89). -/
theorem insertByte_of_unescape {c v : Byte} {s : State} (he : s.escp = true) (hd : s.done = false)
    (hc : unescape c = some v) : insertByte c s = onEscPair v s := by
  rcases cases_of_unescape hc with ⟨rfl, rfl⟩ | ⟨rfl, rfl⟩
  · exact insertByte_of_not_done (c := .escEnd) hd (by rw [he]; rfl)
  · exact insertByte_of_not_done (c := .escEsc) hd (by rw [he]; rfl)

section
variable {s : State} (he : s.escp = false) (hd : s.done = false)
include he hd

/-- A pair appends the byte it stands for and leaves no escape pending. -/
theorem insertAll_pair {c v : Byte} (bs : List Byte) (hc : unescape c = some v)
    (hl : s.acc.length < s.params.decCap) :
    insertAll (ESC :: c :: bs) s =
      insertAll bs ((s.withAcc (s.acc ++ [v])).withReply (some (.op okResponse))) := by
  have hesc : insertByte ESC s = finish (s.withEscp true) :=
    insertByte_of_not_done (c := .escByte) hd (by rw [he]; rfl)
  have hcode := (insertByte_of_unescape (s := (s.withEscp true).withReply (some (.op okResponse))) rfl hd hc).trans
    (onEscPair_of_room v hl)
  rw [insertAll_cons_of_finish hesc, insertAll_cons_of_finish hcode]
  simp only [State.withAcc, State.withEscp, State.withReply, ← he]

/-- What a payload byte is stuffed into appends that byte (R53, R54). -/
theorem insertAll_stuff_append (b : Byte) (bs : List Byte) (hl : s.acc.length < s.params.decCap) :
    insertAll (stuff b ++ bs) s =
      insertAll bs ((s.withAcc (s.acc ++ [b])).withReply (some (.op okResponse))) := by
  rcases stuff_cases b with ⟨rfl, -, hb⟩ | ⟨rfl, -, hb⟩ | ⟨h1, h2, -, hb⟩ <;> rw [hb]
  · exact insertAll_pair he hd bs rfl hl
  · exact insertAll_pair he hd bs rfl hl
  · refine insertAll_cons_of_finish ?_
    rw [insertByte_of_not_done hd (he ▸ classify_data h1 h2), transition, onData_of_room b hl]

end

/-- The stuffed image of a payload that fits appends the payload. The replies before and after are Ok, so that the empty
payload is no exception. -/
theorem insertAll_stuffAll_append (P bs : List Byte) {s : State} (he : s.escp = false) (hd : s.done = false)
    (hl : s.acc.length + P.length ≤ s.params.decCap) :
    insertAll (stuffAll P ++ bs) (s.withReply (some (.op okResponse))) =
      insertAll bs ((s.withAcc (s.acc ++ P)).withReply (some (.op okResponse))) := by
  induction P generalizing s with
  | nil => simp [stuffAll, State.withAcc]
  | cons b P ih =>
    rw [List.length_cons] at hl
    have hfirst := insertAll_stuff_append (s := s.withReply (some (.op okResponse))) he hd b (stuffAll P ++ bs)
      (show s.acc.length < s.params.decCap by omega)
    have hrest := ih (s := s.withAcc (s.acc ++ [b])) he hd (by simp; omega)
    rw [stuffAll, List.append_assoc, hfirst]
    simpa [State.withAcc, State.withReply] using hrest

/-- From the decoder's initial state, the frame of a payload that fits leaves the payload in ACC and completes it by the
rule of R84. -/
theorem insertAll_frame {P : List Byte} {s : State} (ha : s.acc = []) (he : s.escp = false) (hd : s.done = false)
    (hl : P.length ≤ s.params.decCap) :
    insertAll (frame P) s = finish ((s.withAcc P).withDone (doneAfterEnd P false)) := by
  have hopen : insertByte END s = finish s :=
    (insertByte_of_not_done (c := .endByte) hd (by rw [he]; rfl)).trans (onEnd_of_nil (by rw [ha]; rfl))
  have hclose : insertByte END ((s.withAcc P).withReply (some (.op okResponse))) =
      onEnd ((s.withAcc P).withReply (some (.op okResponse))) :=
    insertByte_of_not_done (c := .endByte) hd (by rw [State.withReply_escp, State.withAcc_escp, he]; rfl)
  calc insertAll (frame P) s
      = insertAll (stuffAll P ++ [END]) (s.withReply (some (.op okResponse))) := insertAll_cons_of_finish hopen
    _ = insertAll [END] ((s.withAcc P).withReply (some (.op okResponse))) := by
        rw [insertAll_stuffAll_append P [END] he hd (by simpa [ha] using hl), ha, List.nil_append]
    _ = finish ((s.withAcc P).withDone (doneAfterEnd P false)) := by
        rw [insertAll_cons_of_finish hclose, ← hd]
        rfl

/-- DECODE of a frame ends with the payload in ACC and in the view (R63, R94 case 1). -/
theorem decodeStream_frame {P : List Byte} {s : State} (hl : P.length ≤ s.params.decCap) :
    decodeStream (frame P) s =
      answer (.op { status := .ok, flag := none, view := some P })
        (((clearDecoder s).withAcc P).withDone (doneAfterEnd P false)) := by
  have hins := insertAll_frame (P := P) (s := (clearDecoder s).withReply (some (.op okResponse))) rfl rfl rfl hl
  calc decodeStream (frame P) s
      = andThen (insertAll (frame P) ((clearDecoder s).withReply (some (.op okResponse)))) fun t =>
          andThen (execDecIsCompleted t) execDecGetBuffer := rfl
    _ = answer (.op { status := .ok, flag := none, view := some P })
          (((clearDecoder s).withAcc P).withDone (doneAfterEnd P false)) := by
        rw [hins]
        rfl

/-- Settles O44: ENCODE leaves the frame of the payload, and the frame is decoded byte by byte to the payload. -/
theorem decodingAnEncodedPayloadGivesItBack : Obligations.DecodingAnEncodedPayloadGivesItBack := by
  unfold Obligations.DecodingAnEncodedPayloadGivesItBack
  intro s hfit hroom
  refine ⟨_, _, _, execEncode_of_le hfit, rfl, insertAll_frame rfl rfl rfl hroom, rfl, decodeStream_frame hroom, rfl,
    rfl, ?_, ⟨_, rfl, rfl, rfl⟩⟩
  exact doneAfterEnd_eq_true_iff.trans List.length_pos_iff

/-! ### The two answers of ENCODE -/

/-- Settles O3: ENCODE tests the length of the frame, which is M + K + 2. -/
theorem encodeCommitsFrameOrChangesNothing : Obligations.EncodeCommitsFrameOrChangesNothing := by
  unfold Obligations.EncodeCommitsFrameOrChangesNothing
  obtain ⟨hframe, hlength⟩ := frameHasExactLength
  refine ⟨fun e w h => ?_, fun s h => ?_, fun s h => ⟨?_, ?_⟩⟩
  · have hop : opField w = 0#3 := opField_of_mask h
    simp [decode, decodeCmd, hop]
  · rw [← frameLength_eq] at h
    rw [exec, execEncode_of_lt h]
    exact answers_raise _ s
  · rw [← frameLength_eq] at h
    rw [exec, execEncode_of_le h, ← hframe]
    exact answers_finish _
  · rw [← hframe, hlength]

/-- Settles O7: a frame is at least two bytes longer than its payload, and the error leaves EBUF as it was. -/
theorem encodeFailsWithoutRoomForDelimiters : Obligations.EncodeFailsWithoutRoomForDelimiters := by
  unfold Obligations.EncodeFailsWithoutRoomForDelimiters
  intro s t hfull hst
  have hlong : s.params.encCap < frameLength s.ebuf := by
    unfold frameLength
    omega
  rw [exec, execEncode_of_lt hlong] at hst
  cases hst
  exact ⟨rfl, rfl, execEncode_of_lt hlong⟩

/-! ### The form of a frame -/

/-- R53: no stuffed byte is END. -/
theorem end_notMem_stuffAll (P : List Byte) : END ∉ stuffAll P := by
  induction P with
  | nil => exact List.not_mem_nil
  | cons b P ih =>
    rw [stuffAll, List.mem_append, not_or]
    refine ⟨?_, ih⟩
    rcases stuff_cases b with ⟨-, -, hb⟩ | ⟨-, -, hb⟩ | ⟨h, -, -, hb⟩ <;> rw [hb]
    · decide
    · decide
    · simpa using h.symm

/-- Every ESC in bs is followed at once by ESC_END or ESC_ESC (R76 (2)). -/
def EscapesPaired (bs : List Byte) : Prop :=
  ∀ i : Nat, bs[i]? = some ESC → bs[i + 1]? = some ESC_END ∨ bs[i + 1]? = some ESC_ESC

theorem escapesPaired_nil : EscapesPaired [] := fun i h => by simp at h

theorem EscapesPaired.cons {b : Byte} {bs : List Byte} (hb : b ≠ ESC) (h : EscapesPaired bs) :
    EscapesPaired (b :: bs)
  | 0, hi => absurd (Option.some.inj hi) hb
  | i + 1, hi => h i hi

theorem EscapesPaired.cons_pair {c : Byte} {bs : List Byte} (hc : c = ESC_END ∨ c = ESC_ESC)
    (h : EscapesPaired bs) : EscapesPaired (ESC :: c :: bs)
  | 0, _ => hc.imp (congrArg some) (congrArg some)
  | i + 1, hi =>
    have hne : c ≠ ESC := by rcases hc with rfl | rfl <;> decide
    h.cons hne i hi

theorem EscapesPaired.stuffAll_append {bs : List Byte} (h : EscapesPaired bs) (P : List Byte) :
    EscapesPaired (stuffAll P ++ bs) := by
  induction P with
  | nil => exact h
  | cons b P ih =>
    rw [stuffAll, List.append_assoc]
    rcases stuff_cases b with ⟨-, -, hb⟩ | ⟨-, -, hb⟩ | ⟨-, hne, -, hb⟩ <;> rw [hb]
    · exact ih.cons_pair (.inl rfl)
    · exact ih.cons_pair (.inr rfl)
    · exact ih.cons hne

theorem escapesPaired_frame (P : List Byte) : EscapesPaired (frame P) :=
  ((escapesPaired_nil.cons constants_distinct.1.symm).stuffAll_append P).cons constants_distinct.1.symm

/-- R76 (1): between its delimiters a frame holds stuffed bytes only. -/
theorem frame_getElem?_ne_end {P : List Byte} {i : Nat} (h0 : 0 < i) (hi : i + 1 < (frame P).length) :
    (frame P)[i]? ≠ some END := by
  cases i with
  | zero => exact absurd h0 (Nat.lt_irrefl 0)
  | succ j =>
    have hj : j < (stuffAll P).length := by simpa [frame] using hi
    have hinner : (frame P)[j + 1]? = (stuffAll P)[j]? :=
      List.getElem?_append_left (l₁ := stuffAll P) (l₂ := [END]) (i := j) hj
    rw [hinner]
    exact fun h => end_notMem_stuffAll P (List.mem_of_getElem? h)

/-- Settles O6: ENCODE leaves a frame, and a frame has these properties. -/
theorem encodedFrameIsDelimitedAndEscaped : Obligations.EncodedFrameIsDelimitedAndEscaped := by
  unfold Obligations.EncodedFrameIsDelimitedAndEscaped
  intro s t hst hfit
  rw [exec, execEncode_of_le hfit] at hst
  cases hst
  have hlen : s.ebuf.length + 2 ≤ (frame s.ebuf).length := by
    rw [frame_length, frameLength]
    omega
  exact ⟨rfl, List.getLast?_concat, fun i => frame_getElem?_ne_end, escapesPaired_frame s.ebuf, hlen⟩

end Sys2Proof.Machine
end

section
/-! The decoder (spec/41_decoder.md): the insert of one byte held against the pseudocode of R82, the statements about
single bytes, DEC.RESET and DEC.GET_BUFFER, and streams of bytes that carry one packet after another. -/

namespace Sys2Proof.Machine

/-! ### One byte -/

/-- R83: an insert after completion is the insert of the same byte with ACC and DONE cleared first. -/
theorem insertByte_of_done {b : Byte} {s : State} (hd : s.done = true) :
    insertByte b s = insertByte b ((s.withAcc []).withDone false) := by
  have hcleared : implicitReset ((s.withAcc []).withDone false) = (s.withAcc []).withDone false :=
    implicitReset_of_not_done rfl
  rw [insertByte, implicitReset_of_done hd, insertByte, hcleared]

section
variable {b : Byte} {s : State} (he : s.escp = false) (hd : s.done = false)
include he hd

/-- R84: END in state Accumulating. -/
theorem insertByte_end : insertByte END s = onEnd s :=
  insertByte_of_not_done (c := .endByte) hd (by rw [he]; rfl)

/-- R85: ESC in state Accumulating. -/
theorem insertByte_esc : insertByte ESC s = onEsc s :=
  insertByte_of_not_done (c := .escByte) hd (by rw [he]; rfl)

/-- R86: any other byte in state Accumulating. -/
theorem insertByte_data (h1 : b ≠ END) (h2 : b ≠ ESC) : insertByte b s = onData b s :=
  insertByte_of_not_done (c := .data) hd (he ▸ classify_data h1 h2)

end

/-- The insert of b in state s does what the pseudocode of R82 says. -/
def FollowsPseudocode (b : Byte) (s : State) : Prop :=
  Answers (insertByte b s)
    { s with
      acc := (insertPseudocode s.params s.acc s.escp s.done b).1
      escp := (insertPseudocode s.params s.acc s.escp s.done b).2.1
      done := (insertPseudocode s.params s.acc s.escp s.done b).2.2.1 }
    (insertPseudocode s.params s.acc s.escp s.done b).2.2.2

theorem followsPseudocode_of_finish {b : Byte} {s t : State} (hi : insertByte b s = finish t)
    (hframe : s.withDec t.acc t.escp t.done = t)
    (hp : insertPseudocode s.params s.acc s.escp s.done b = (t.acc, t.escp, t.done, .ok)) :
    FollowsPseudocode b s := by
  rw [FollowsPseudocode, hi, hp, ← hframe]
  exact answers_finish _

theorem followsPseudocode_of_raise {b : Byte} {s t : State} {e : SlipError} (hi : insertByte b s = raise e t)
    (hframe : s.withDec t.acc t.escp t.done = t)
    (hp : insertPseudocode s.params s.acc s.escp s.done b = (t.acc, t.escp, t.done, .error e)) :
    FollowsPseudocode b s := by
  rw [FollowsPseudocode, hi, hp, ← hframe]
  exact answers_raise _ _

section
variable {b : Byte} {s : State} (hd : s.done = false) (hl : s.acc.length ≤ s.params.decCap)
include hd hl

/-- Step 2 of the pseudocode in state Accumulating, a data byte (R86). -/
theorem followsPseudocode_data (he : s.escp = false) (h1 : b ≠ END) (h2 : b ≠ ESC) : FollowsPseudocode b s := by
  have hi : insertByte b s = onData b s := insertByte_data he hd h1 h2
  rcases hl.lt_or_eq with hroom | hfull
  · refine followsPseudocode_of_finish (hi.trans (onData_of_room b hroom)) rfl ?_
    simp [insertPseudocode, he, hd, h1, h2, hroom.ne]
  · refine followsPseudocode_of_raise (hi.trans (onData_of_full b hfull.ge)) rfl ?_
    simp [insertPseudocode, he, hd, h1, h2, hfull]

/-- Step 2 of the pseudocode in state EscapePending, the second byte of a valid pair (R88, R89, R91). -/
theorem followsPseudocode_pair {v : Byte} (he : s.escp = true) (hb : unescape b = some v) :
    FollowsPseudocode b s := by
  have hi : insertByte b s = onEscPair v s := insertByte_of_unescape he hd hb
  have hcode : (b = ESC_END ∨ b = ESC_ESC) ∧ (if b = ESC_END then END else ESC) = v := by
    rcases cases_of_unescape hb with ⟨rfl, rfl⟩ | ⟨rfl, rfl⟩ <;> decide
  rcases hl.lt_or_eq with hroom | hfull
  · refine followsPseudocode_of_finish (hi.trans (onEscPair_of_room v hroom)) rfl ?_
    simp [insertPseudocode, he, hd, hcode, hroom.ne]
  · refine followsPseudocode_of_raise (hi.trans (onEscPair_of_full v hfull.ge)) rfl ?_
    cases hpol : s.params.escOvfPolicy <;> simp [insertPseudocode, escpAfterOverflow, he, hd, hcode, hfull, hpol]

/-- Step 2 of the pseudocode, class by class. -/
theorem followsPseudocode_of_not_done : FollowsPseudocode b s := by
  rcases classify_cases s.escp b with
    ⟨-, he, rfl⟩ | ⟨-, he, rfl⟩ | ⟨-, he, h1, h2⟩ | ⟨-, he, rfl⟩ | ⟨-, he, rfl⟩ | ⟨hc, he, h1, h2⟩
  · refine followsPseudocode_of_finish (insertByte_end he hd) rfl ?_
    simp [insertPseudocode, doneAfterEnd, he, hd]
  · refine followsPseudocode_of_finish (insertByte_esc he hd) rfl ?_
    simp [insertPseudocode, he, hd, constants_distinct.1]
  · exact followsPseudocode_data hd hl he h1 h2
  · exact followsPseudocode_pair hd hl he rfl
  · exact followsPseudocode_pair hd hl he rfl
  · refine followsPseudocode_of_raise (insertByte_of_not_done hd hc) rfl ?_
    cases hpol : s.params.escFaultPolicy <;> simp [insertPseudocode, escpAfterFault, he, hd, h1, h2, hpol]

end

/-- Step 1 of the pseudocode clears ACC and DONE as the implicit reset does, and step 2 follows on what it left. -/
theorem followsPseudocode_of_le {b : Byte} {s : State} (hl : s.acc.length ≤ s.params.decCap) :
    FollowsPseudocode b s := by
  cases hd : s.done with
  | false => exact followsPseudocode_of_not_done hd hl
  | true =>
    have hcleared : FollowsPseudocode b ((s.withAcc []).withDone false) :=
      followsPseudocode_of_not_done rfl (Nat.zero_le _)
    rw [FollowsPseudocode, insertByte_of_done hd, hd]
    exact hcleared

/-- Settles O9: the byte is the data field, and the insert follows the two steps of the pseudocode. -/
theorem decInsertFollowsPseudocode : Obligations.DecInsertFollowsPseudocode := by
  unfold Obligations.DecInsertFollowsPseudocode
  exact ⟨fun e w h => decodeCmd_insert (opField_of_mask h), fun b s hl => followsPseudocode_of_le hl⟩

/-- In state Accumulating with room in ACC no insert fails. -/
theorem insertByte_eq_finish_of_room {b : Byte} {s : State} (he : s.escp = false) (hd : s.done = false)
    (hl : s.acc.length < s.params.decCap) : ∃ t, insertByte b s = finish t := by
  by_cases h1 : b = END
  · exact ⟨_, h1 ▸ insertByte_end he hd⟩
  · by_cases h2 : b = ESC
    · exact ⟨_, h2 ▸ insertByte_esc he hd⟩
    · exact ⟨_, (insertByte_data he hd h1 h2).trans (onData_of_room b hl)⟩

/-- Settles O10: the invariant gives a completed packet a byte, so that DEC_CAP is not 0, and no pending escape; the
cleared ACC then has room. -/
theorem implicitResetPrecedesInsert : Obligations.ImplicitResetPrecedesInsert := by
  unfold Obligations.ImplicitResetPrecedesInsert
  refine ⟨fun b s hd => insertByte_of_done hd, fun b s ⟨_, hacc, hescp, hlen⟩ hd => ?_⟩
  have hcap : 0 < s.params.decCap := (hlen hd).trans (of_decide_eq_true hacc)
  obtain ⟨t, ht⟩ := insertByte_eq_finish_of_room (b := b) (s := (s.withAcc []).withDone false) (hescp hd) rfl hcap
  exact ⟨_, (insertByte_of_done hd).trans ht, rfl⟩

/-! ### The transitions, as the WIRE rows make them -/

/-- Settles O11: this insert is the row WIRE.END. -/
theorem insertEndCompletesNonEmptyPacket : Obligations.InsertEndCompletesNonEmptyPacket := by
  unfold Obligations.InsertEndCompletesNonEmptyPacket
  intro s he hd
  obtain ⟨hnonempty, hempty, -⟩ := (wireRowsMakeTheirTransition s hd).1 he
  rw [← wireRowsAgreeWithDecInsert .wireEnd _ s rfl]
  exact ⟨hnonempty, hempty⟩

/-- Settles O12: this insert is the row WIRE.ESC. -/
theorem insertEscSetsEscapePending : Obligations.InsertEscSetsEscapePending := by
  unfold Obligations.InsertEscSetsEscapePending
  intro s he hd
  obtain ⟨-, -, hesc, -⟩ := (wireRowsMakeTheirTransition s hd).1 he
  rw [← wireRowsAgreeWithDecInsert .wireEsc _ s rfl]
  exact hesc

/-- Settles O13: this insert is the row WIRE.DATA. -/
theorem insertDataAppendsOrOverflows : Obligations.InsertDataAppendsOrOverflows := by
  unfold Obligations.InsertDataAppendsOrOverflows
  intro b s h1 h2 he hd
  obtain ⟨-, -, -, hdata⟩ := (wireRowsMakeTheirTransition s hd).1 he
  rw [← wireRowsAgreeWithDecInsert (.wireData b) b s rfl]
  exact hdata b h1 h2

/-- Settles O14: these inserts are the rows WIRE.ESC_END and WIRE.ESC_ESC. -/
theorem insertEscapeCodeAppendsOriginal : Obligations.InsertEscapeCodeAppendsOriginal := by
  unfold Obligations.InsertEscapeCodeAppendsOriginal
  intro s he hd hroom
  obtain ⟨hpair, -⟩ := (wireRowsMakeTheirTransition s hd).2 he
  rw [← wireRowsAgreeWithDecInsert .wireEscEnd _ s rfl, ← wireRowsAgreeWithDecInsert .wireEscEsc _ s rfl]
  exact hpair hroom

/-- Settles O15: this insert is the row WIRE.BAD_ESC, and the policy says what becomes of ESCP. -/
theorem insertBadEscapeRaisesError : Obligations.InsertBadEscapeRaisesError := by
  unfold Obligations.InsertBadEscapeRaisesError
  intro b s h1 h2 he hd
  obtain ⟨-, -, hbad⟩ := (wireRowsMakeTheirTransition s hd).2 he
  rw [← wireRowsAgreeWithDecInsert (.wireBadEsc b) b s rfl]
  replace hbad := hbad b h1 h2
  refine ⟨fun hpol => ?_, fun hpol => ?_⟩ <;> rw [hpol, ← he] at hbad <;> exact hbad

/-- Settles O16: these inserts are the rows WIRE.ESC_END and WIRE.ESC_ESC on a full ACC, and the policy says what becomes
of ESCP. -/
theorem insertEscapeCodeOverflows : Obligations.InsertEscapeCodeOverflows := by
  unfold Obligations.InsertEscapeCodeOverflows
  intro b s hb he hd hfull
  obtain ⟨-, hoverflow, -⟩ := (wireRowsMakeTheirTransition s hd).2 he
  obtain ⟨hend, hesc⟩ := hoverflow hfull
  have hcode : Answers (exec (.decInsert b) s) (s.withEscp (escpAfterOverflow s.params.escOvfPolicy s.escp))
      (.error .capacityExceeded) := by
    rw [he]
    rcases hb with rfl | rfl
    · exact hend
    · exact hesc
  refine ⟨fun hpol => ?_, fun hpol => ?_⟩ <;> rw [hpol] at hcode <;> exact hcode

/-! ### DEC.RESET and DEC.GET_BUFFER -/

/-- A command word with another op than 2 decodes as the word with the same op and data 0 (R57). -/
theorem decode_of_mask {w : CmdWord} {op : BitVec 3} (e : Bool) (h : w &&& 0x700#11 = cmdWord op 0#8) (h2 : op ≠ 2#3) :
    decode e (.cmd w) = decodeCmd (cmdWord op 0#8) := by
  have hop : opField w = op := opField_of_mask h
  exact decodeCmd_eq_of_opField_eq (hop.trans (opField_cmdWord op 0#8).symm) (hop ▸ h2)

/-- Settles O2: op = 1 alone selects the reset, which writes the initial values whatever stood there. -/
theorem decResetClearsDecoder : Obligations.DecResetClearsDecoder := by
  unfold Obligations.DecResetClearsDecoder
  refine ⟨fun e w h => decode_of_mask (op := 1#3) e h (by decide), fun s => answers_finish _, fun s t u ht hu => ?_⟩
  cases ht
  cases hu
  rfl

/-- Settles O20: op = 4 alone selects the read, which answers ACC and writes only the reply. -/
theorem getBufferReturnsAccumulator : Obligations.GetBufferReturnsAccumulator := by
  unfold Obligations.GetBufferReturnsAccumulator
  exact ⟨fun e w h => decode_of_mask (op := 4#3) e h (by decide), fun s => ⟨_, rfl, rfl, rfl⟩⟩

/-! ### Streams of bytes -/

/-- The stuffed image of a payload that fits and is not empty appends the payload, whatever was answered before. -/
theorem insertAll_stuffAll_append_of_ne_nil {P : List Byte} (bs : List Byte) {s : State} (hP : P ≠ [])
    (he : s.escp = false) (hd : s.done = false) (hl : s.acc.length + P.length ≤ s.params.decCap) :
    insertAll (stuffAll P ++ bs) s = insertAll bs ((s.withAcc (s.acc ++ P)).withReply (some (.op okResponse))) := by
  obtain ⟨b, P, rfl⟩ := List.exists_cons_of_ne_nil hP
  rw [List.length_cons] at hl
  have hrest := insertAll_stuffAll_append P bs (s := s.withAcc (s.acc ++ [b])) he hd (by simp; omega)
  rw [stuffAll, List.append_assoc, insertAll_stuff_append he hd b _ (by omega), hrest]
  simp [State.withAcc]

/-- Settles O41: an empty payload inserts nothing, and any other is appended with Ok answered last. -/
theorem insertingStuffedPayloadAppendsIt : Obligations.InsertingStuffedPayloadAppendsIt := by
  unfold Obligations.InsertingStuffedPayloadAppendsIt
  intro P s he hd hl
  by_cases hP : P = []
  · subst hP
    exact ⟨s, rfl, (List.append_nil _).symm, he, hd, rfl, rfl, fun h => absurd rfl h⟩
  · have happend := insertAll_stuffAll_append_of_ne_nil [] hP he hd hl
    rw [List.append_nil] at happend
    exact ⟨_, happend, rfl, he, hd, rfl, rfl, fun _ => rfl⟩

/-- Inserts that end in Ok are followed by those of the rest of the stream (R63). -/
theorem insertAll_append {bs : List Byte} (cs : List Byte) {s t : State} (h : insertAll bs s = .next t)
    (hok : replyStatus t.reply = some .ok) : insertAll (bs ++ cs) s = insertAll cs t := by
  induction bs generalizing s with
  | nil => cases h; rfl
  | cons b bs ih =>
    obtain ⟨u, r, hu⟩ := exec_answers (i := .decInsert b) rfl s
    replace hu : execDecInsert b s = answer r u := hu
    rw [List.cons_append]
    simp only [insertAll, hu, answer, andThen] at h ⊢
    split at h
    · rw [if_pos ‹_›]
      exact ih h
    · cases h
      contradiction

/-- R83: the implicit reset can be made before the first byte of a stream. -/
theorem insertAll_implicitReset (b : Byte) (bs : List Byte) (s : State) :
    insertAll (b :: bs) s = insertAll (b :: bs) (implicitReset s) := by
  cases hd : s.done with
  | false => rw [implicitReset_of_not_done hd]
  | true => rw [implicitReset_of_done hd, insertAll, insertAll, execDecInsert, execDecInsert, insertByte_of_done hd]

/-- A decoder that can begin a packet: no escape is pending, and ACC is empty or holds a completed packet. -/
def ReadyForPacket (s : State) : Prop := s.escp = false ∧ (s.done = false → s.acc = [])

/-- The stream completes packet P on every decoder that can begin it and has the capacity for it. -/
def Delivers (bs P : List Byte) : Prop :=
  ∀ s : State, ReadyForPacket s → P.length ≤ s.params.decCap → insertAll bs s = finish ((s.withAcc P).withDone true)

/-- It is enough to look at the decoder's initial state, which the implicit reset makes of any other (R83). -/
theorem delivers_of_initial {b : Byte} {bs P : List Byte}
    (h : ∀ s : State, s.acc = [] → s.escp = false → s.done = false → P.length ≤ s.params.decCap →
      insertAll (b :: bs) s = finish ((s.withAcc P).withDone true)) : Delivers (b :: bs) P := by
  intro s ⟨he, ha⟩ hl
  rw [insertAll_implicitReset]
  cases hd : s.done with
  | false =>
    rw [implicitReset_of_not_done hd]
    exact h s (ha hd) he hd hl
  | true =>
    rw [implicitReset_of_done hd]
    exact h ((s.withAcc []).withDone false) rfl he rfl hl

/-- R94 case 1: the frame of a non-empty payload. -/
theorem delivers_frame {P : List Byte} (hP : P ≠ []) : Delivers (frame P) P :=
  delivers_of_initial fun s ha he hd hl => by
    have hdone : doneAfterEnd P false = true := doneAfterEnd_eq_true_iff.mpr (List.length_pos_iff.mpr hP)
    rw [← hdone]
    exact insertAll_frame ha he hd hl

/-- From the decoder's initial state a payload and the END that closes it need no END before them (R94 case 3). -/
theorem insertAll_stuffAll_end {P : List Byte} {s : State} (hP : P ≠ []) (ha : s.acc = []) (he : s.escp = false)
    (hd : s.done = false) (hl : P.length ≤ s.params.decCap) :
    insertAll (stuffAll P ++ [END]) s = finish ((s.withAcc P).withDone true) := by
  have hclose := (insertByte_end (s := (s.withAcc P).withReply (some (.op okResponse))) he hd).trans
    (onEnd_of_ne_nil (List.length_pos_iff.mpr hP))
  rw [insertAll_stuffAll_append_of_ne_nil [END] hP he hd (by simpa [ha] using hl), ha, List.nil_append,
    insertAll_cons_of_finish hclose]
  rfl

/-- The same as a stream that delivers its packet, so that it can stand after another. -/
theorem delivers_stuffAll_end {P : List Byte} (hP : P ≠ []) : Delivers (stuffAll P ++ [END]) P := by
  cases hbs : stuffAll P ++ [END] with
  | nil => simp at hbs
  | cons b bs => exact delivers_of_initial fun s ha he hd hl => hbs ▸ insertAll_stuffAll_end hP ha he hd hl

/-- A decoder that has completed a packet is ready for the next, of which alone ACC then holds the bytes. -/
theorem Delivers.append {bs cs P Q : List Byte} (hP : Delivers bs P) (hQ : Delivers cs Q) {s : State}
    (hs : ReadyForPacket s) (hlP : P.length ≤ s.params.decCap) (hlQ : Q.length ≤ s.params.decCap) :
    insertAll (bs ++ cs) s = finish ((s.withAcc Q).withDone true) := by
  have hready : ReadyForPacket (((s.withAcc P).withDone true).withReply (some (.op okResponse))) :=
    ⟨hs.1, nofun⟩
  rw [insertAll_append cs (hP s hs hlP) rfl, hQ _ hready hlQ]
  rfl

/-- Settles O42: each stream is a packet, or a packet after a packet; the shared END closes the first of the two. -/
theorem packetsFollowWithoutResidue : Obligations.PacketsFollowWithoutResidue := by
  unfold Obligations.PacketsFollowWithoutResidue
  intro P Q s ha he hd hP hQ hlP hlQ
  have hs : ReadyForPacket s := ⟨he, fun _ => ha⟩
  refine ⟨⟨_, delivers_stuffAll_end hP s hs hlP, rfl, he, rfl, rfl⟩,
    ⟨_, (delivers_frame hP).append (delivers_frame hQ) hs hlP hlQ, rfl, he, rfl, rfl⟩, ?_⟩
  rw [List.append_assoc _ (stuffAll Q)]
  exact ⟨_, (delivers_frame hP).append (delivers_stuffAll_end hQ) hs hlP hlQ, rfl, he, rfl, rfl⟩

/-! ### A frame too long for the decoder -/

/-- The inserts stop at one that raises an error (R63). -/
theorem insertAll_cons_of_raise {b : Byte} (bs : List Byte) {s t : State} {e : SlipError}
    (h : insertByte b s = raise e t) : insertAll (b :: bs) s = raise e t := by
  rw [insertAll, execDecInsert, h]
  rfl

section
variable {s : State} (he : s.escp = false) (hd : s.done = false) (hfull : s.params.decCap ≤ s.acc.length)
include he hd hfull

/-- On a full ACC a pair fails at its second byte. -/
theorem insertAll_pair_of_full {c v : Byte} (bs : List Byte) (hc : unescape c = some v) :
    ∃ t, insertAll (ESC :: c :: bs) s = raise .capacityExceeded t ∧ t.acc = s.acc ∧ t.done = false := by
  have hesc : insertByte ESC s = finish (s.withEscp true) := insertByte_esc he hd
  have hcode := (insertByte_of_unescape (s := (s.withEscp true).withReply (some (.op okResponse))) rfl hd hc).trans
    (onEscPair_of_full v hfull)
  rw [insertAll_cons_of_finish hesc, insertAll_cons_of_raise bs hcode]
  exact ⟨_, rfl, rfl, hd⟩

/-- On a full ACC what a payload byte is stuffed into fails at the byte that would append it (R86, R91). -/
theorem insertAll_stuff_of_full (b : Byte) (bs : List Byte) :
    ∃ t, insertAll (stuff b ++ bs) s = raise .capacityExceeded t ∧ t.acc = s.acc ∧ t.done = false := by
  rcases stuff_cases b with ⟨rfl, -, hb⟩ | ⟨rfl, -, hb⟩ | ⟨h1, h2, -, hb⟩ <;> rw [hb]
  · exact insertAll_pair_of_full he hd hfull bs rfl
  · exact insertAll_pair_of_full he hd hfull bs rfl
  · have hdata : insertByte b s = raise .capacityExceeded s :=
      (insertByte_data he hd h1 h2).trans (onData_of_full b hfull)
    exact ⟨s, insertAll_cons_of_raise bs hdata, rfl, hd⟩

end

/-- A frame is the stuffed images of the payload's parts between its delimiters. -/
theorem frame_append_cons (P Q : List Byte) (b : Byte) :
    frame (P ++ b :: Q) = END :: (stuffAll P ++ (stuff b ++ (stuffAll Q ++ [END]))) := by
  simp [frame, stuffAll_eq_flatMap]

/-- Settles O43: the first DEC_CAP bytes of the payload fill ACC, and the next one fails. -/
theorem frameTooLongForDecoderOverflows : Obligations.FrameTooLongForDecoderOverflows := by
  unfold Obligations.FrameTooLongForDecoderOverflows
  intro P s ha he hd hlong
  generalize hn : s.params.decCap = n at hlong ⊢
  have hsplit : P = P.take n ++ P[n] :: P.drop (n + 1) := by simp
  have htake : (P.take n).length = n := List.length_take_of_le hlong.le
  have hopen : insertByte END s = finish s := (insertByte_end he hd).trans (onEnd_of_nil (by rw [ha]; rfl))
  have hfill := insertAll_stuffAll_append (P.take n) (stuff P[n] ++ (stuffAll (P.drop (n + 1)) ++ [END])) he hd
    (by rw [ha, htake, hn]; simp)
  obtain ⟨t, ht, hacc, hdone⟩ := insertAll_stuff_of_full
    (s := (s.withAcc (P.take n)).withReply (some (.op okResponse))) he hd (hn.trans htake.symm).le P[n]
    (stuffAll (P.drop (n + 1)) ++ [END])
  have hframe : insertAll (frame P) s = raise .capacityExceeded t := by
    rw [hsplit, frame_append_cons, insertAll_cons_of_finish hopen, hfill, ha, List.nil_append, ht]
  exact ⟨_, hframe, rfl, hacc, hdone⟩

end Sys2Proof.Machine
end

section
/-! The errors (spec/60_exceptions.md): the table of raising sites of R104, the proof that ENCODE and the inserts raise
their errors there and nowhere else, and the statements about errors. -/

namespace Sys2Proof.Machine

/-! ### The raising sites -/

/-- The table of R104: instruction i raises e in state s and leaves u, a constructor for each site. -/
inductive Raises (s : State) (i : Instr) : SlipError → State → Prop where
  | encode : i = .encode → s.params.encCap < frameLength s.ebuf → Raises s i .capacityExceeded s
  | data (b : Byte) : wireByte i = some b → b ≠ END → b ≠ ESC → s.escp = false → s.done = false →
      s.acc.length = s.params.decCap → Raises s i .capacityExceeded s
  | pair (b : Byte) : wireByte i = some b → (b = ESC_END ∨ b = ESC_ESC) → s.escp = true →
      s.acc.length = s.params.decCap →
      Raises s i .capacityExceeded (s.withEscp (escpAfterOverflow s.params.escOvfPolicy true))
  | badEsc (b : Byte) : wireByte i = some b → b ≠ ESC_END → b ≠ ESC_ESC → s.escp = true →
      Raises s i .invalidEscapeSequence (s.withEscp (escpAfterFault s.params.escFaultPolicy true))

/-- R17: a pending escape belongs to a packet that is not complete. -/
theorem not_done_of_escp {s : State} (hs : s.Inv) (he : s.escp = true) : s.done = false := by
  obtain ⟨-, -, hde, -⟩ := hs
  simpa [he] using hde

/-- What the implicit reset leaves is never full after a completed packet, which had at least one byte (R14, R17). -/
theorem full_implicitReset_iff {s : State} (hs : s.Inv) :
    s.params.decCap ≤ (implicitReset s).acc.length ↔ s.done = false ∧ s.acc.length = s.params.decCap := by
  obtain ⟨-, hacc, -, hlen⟩ := hs
  have hle : s.acc.length ≤ s.params.decCap := of_decide_eq_true hacc
  cases hd : s.done with
  | false => simp [implicitReset_acc, hd, hle.ge_iff_eq]
  | true =>
    have hpos : 1 ≤ s.params.decCap := (hlen hd).trans hle
    simp [implicitReset_acc, hd, Nat.ne_of_gt hpos]

/-! ### The sites raise, and nothing else does -/

theorem exec_of_raises {i : Instr} {s u : State} {e : SlipError} (hs : s.Inv) (h : Raises s i e u) :
    exec i s = raise e u := by
  cases h with
  | encode hi hlong =>
    subst hi
    exact execEncode_of_lt hlong
  | data b hw h1 h2 he hd hfull =>
    rw [exec_of_wireByte hw, insertByte_data he hd h1 h2, onData_of_full b hfull.ge]
  | pair b hw hb he hfull =>
    obtain ⟨v, hv⟩ : ∃ v, unescape b = some v := by rcases hb with rfl | rfl <;> exact ⟨_, rfl⟩
    rw [exec_of_wireByte hw, insertByte_of_unescape he (not_done_of_escp hs he) hv, onEscPair_of_full v hfull.ge,
      he]
  | badEsc b hw h1 h2 he =>
    have hc : classify s.escp b = .badEsc := he ▸ classify_badEsc h1 h2
    rw [exec_of_wireByte hw, insertByte_of_not_done (not_done_of_escp hs he) hc, transition, onBadEsc, he]

theorem raises_of_insertByte {i : Instr} {b : Byte} {s t : State} {e : SlipError} (hs : s.Inv)
    (hw : wireByte i = some b) (h : insertByte b s = .next t) (he : replyStatus t.reply = some (.error e)) :
    ∃ u, Raises s i e u := by
  cases consumes_of_insertByte h with
  | endByte | escByte | data | pair => cases he
  | dataFull hesc h1 h2 hl =>
    cases he
    rw [implicitReset_params] at hl
    rw [implicitReset_escp] at hesc
    obtain ⟨hd, hfull⟩ := (full_implicitReset_iff hs).mp hl
    exact ⟨_, .data b hw h1 h2 hesc hd hfull⟩
  | pairFull hesc hb hl =>
    cases he
    rw [implicitReset_params] at hl
    rw [implicitReset_escp] at hesc
    obtain ⟨-, hfull⟩ := (full_implicitReset_iff hs).mp hl
    exact ⟨_, .pair b hw hb hesc hfull⟩
  | badEsc hesc h1 h2 =>
    cases he
    rw [implicitReset_escp] at hesc
    exact ⟨_, .badEsc b hw h1 h2 hesc⟩

theorem raises_of_execEncode {s t : State} {e : SlipError} (h : execEncode s = .next t)
    (he : replyStatus t.reply = some (.error e)) : Raises s .encode e s := by
  rcases Nat.lt_or_ge s.params.encCap (frameLength s.ebuf) with hl | hl
  · rw [execEncode_of_lt hl] at h
    cases h
    cases he
    exact .encode rfl hl
  · rw [execEncode_of_le hl] at h
    cases h
    cases he

/-- R101, R102: in a state of the invariant the table is complete, and every row of it raises. -/
theorem replyStatus_eq_error_iff {i : Instr} {s t : State} {e : SlipError} (hs : s.Inv) (h : exec i s = .next t) :
    replyStatus t.reply = some (.error e) ↔ ∃ u, Raises s i e u := by
  constructor
  · intro he
    cases hw : wireByte i with
    | some b => exact raises_of_insertByte hs hw ((exec_of_wireByte hw s).symm.trans h) he
    | none =>
      cases i with
      | decInsert | wireEnd | wireEsc | wireData | wireEscEnd | wireEscEsc | wireBadEsc => cases hw
      | reserved5 | reserved6 | reserved7 => cases h
      | encode => exact ⟨s, raises_of_execEncode h he⟩
      | decReset | decIsCompleted | decGetBuffer | stuffEnd | stuffEsc | stuffPlain => cases h; cases he
  · rintro ⟨u, hu⟩
    rw [exec_of_raises hs hu] at h
    cases h
    rfl

/-! ### A pending escape after an error -/

theorem escpAfterOverflow_by_policy (p : EscOvfPolicy) :
    (p = .hold → escpAfterOverflow p true = true) ∧ (p = .drop → escpAfterOverflow p true = false) := by
  cases p <;> decide

theorem escpAfterFault_by_policy (p : EscFaultPolicy) :
    (p = .hold → escpAfterFault p true = true) ∧ (p = .discard → escpAfterFault p true = false) := by
  cases p <;> decide

/-! ### The statements -/

/-- Settles O24: ENCODE, the decoder's operations and the STUFF rows each answer from every state. -/
theorem everyWellFormedInstructionAnswers : Obligations.EveryWellFormedInstructionAnswers := by
  unfold Obligations.EveryWellFormedInstructionAnswers
  intro i s hi
  obtain ⟨t, r, hr⟩ := exec_answers hi s
  exact ⟨t.withReply (some r), hr, rfl⟩

/-- Settles O22: three rows of the table of R104 are for CapacityExceeded and one is for InvalidEscapeSequence. -/
theorem errorsAreRaisedExactlyAtTheirSites : Obligations.ErrorsAreRaisedExactlyAtTheirSites := by
  unfold Obligations.ErrorsAreRaisedExactlyAtTheirSites
  refine ⟨rfl, rfl, fun i s t hs h => ?_⟩
  rw [replyStatus_eq_error_iff hs h, replyStatus_eq_error_iff hs h, ← frameLength_eq]
  refine ⟨⟨?_, ?_⟩, ⟨?_, ?_⟩⟩
  · rintro ⟨u, hu⟩
    cases hu with
    | encode hi hlong => exact .inl ⟨hi, hlong⟩
    | data b hw h1 h2 he hd hfull => exact .inr (.inl ⟨b, hw, h1, h2, he, hd, hfull⟩)
    | pair b hw hb he hfull => exact .inr (.inr ⟨b, hw, hb, he, hfull⟩)
  · rintro (⟨hi, hlong⟩ | ⟨b, hw, h1, h2, he, hd, hfull⟩ | ⟨b, hw, hb, he, hfull⟩)
    · exact ⟨_, .encode hi hlong⟩
    · exact ⟨_, .data b hw h1 h2 he hd hfull⟩
    · exact ⟨_, .pair b hw hb he hfull⟩
  · rintro ⟨u, hu⟩
    cases hu with
    | badEsc b hw h1 h2 he => exact ⟨b, hw, h1, h2, he⟩
  · rintro ⟨b, hw, h1, h2, he⟩
    exact ⟨_, .badEsc b hw h1 h2 he⟩

/-- Settles O23: the table of R104, row by row. -/
theorem stateAfterErrorIsPrecise : Obligations.StateAfterErrorIsPrecise := by
  unfold Obligations.StateAfterErrorIsPrecise
  intro i s t e hs h herr
  obtain ⟨u, hu⟩ := (replyStatus_eq_error_iff hs h).mp herr
  rw [exec_of_raises hs hu] at h
  cases h
  cases hu with
  | encode hi hlong =>
    subst hi
    exact ⟨rfl, rfl, rfl, rfl, rfl, fun _ => ⟨rfl, rfl⟩, nofun⟩
  | data b hw h1 h2 he hd hfull =>
    exact ⟨rfl, rfl, rfl, rfl, rfl, fun _ => ⟨rfl, rfl⟩, by simp [he, hd]⟩
  | pair b hw hb he hfull =>
    have hi : i ≠ .encode := by rintro rfl; cases hw
    exact ⟨rfl, rfl, rfl, rfl, rfl, (absurd · hi), fun _ _ =>
      ⟨not_done_of_escp hs he, by simp [he], fun _ _ => escpAfterOverflow_by_policy _, nofun⟩⟩
  | badEsc b hw h1 h2 he =>
    have hi : i ≠ .encode := by rintro rfl; cases hw
    exact ⟨rfl, rfl, rfl, rfl, rfl, (absurd · hi), fun _ _ =>
      ⟨not_done_of_escp hs he, by simp [he], nofun, fun _ _ => escpAfterFault_by_policy _⟩⟩

end Sys2Proof.Machine
end
